-- ==== Sys2Proof/Word.lean ====
section
/-! DEFINITION. The word types of the CSAT-ARX core: bytes, 64-bit words and byte sequences
(spec/00_scope.md R8, R13). -/

namespace Sys2Proof

/-- One byte. -/
abbrev Byte := BitVec 8

/-- A 64-bit word, the width of every register (R8 `WORD_BITS`, R32). -/
abbrev Word := BitVec 64

/-- A byte sequence, lowest index first (R13). -/
abbrev Bytes := List Byte

end Sys2Proof
end

