-- ==== Sys2Proof/Syntax.lean ====
section
/-! DEFINITION. The commands of the core, one constructor for each row of spec/opcode_table.json
(30_encoding.md R124, R130), and the command error codes (60_exceptions.md R261). -/

namespace Sys2Proof

/-- A decoded command. `src` and `dst` are the fields SRC = v[5:4] and DST = v[7:6] of the command word
(R121); value 3 selects no buffer (R122) and is refused by `Instr.WellFormed`. IVSEL is the difference
between `cbcenc` and `cbcencInj` (R123). -/
inductive Instr where
  | nop
  | keyinit
  | encb
  | decb
  | pad (src dst : BitVec 2)
  | cbcenc (src dst : BitVec 2)
  | cbcencInj (src dst : BitVec 2)
  | cbcdec (src dst : BitVec 2)
  | unpad (src dst : BitVec 2)
  deriving DecidableEq, Repr

/-- Why a command word is rejected at issue (R261). -/
inductive CmdError where
  /-- Code 1: a reserved word (R127). -/
  | illegalCmd
  /-- Code 2: SRC = 3 or DST = 3 in a buffer command (R122). -/
  | badBuf
  /-- Code 3: LEN[SRC] fails the command's bound (R126). -/
  | badLen
  deriving DecidableEq, Repr

end Sys2Proof
end

