-- ==== Sys2Proof/WellFormed.lean ====
section
/-! DEFINITION. Which commands are well formed: every buffer field selects a buffer
(spec/30_encoding.md R122, R125). -/

namespace Sys2Proof

/-- A buffer field selects one of BUF0, BUF1, BUF2; value 3 selects no buffer (R122). -/
abbrev SelectsBuffer (sel : BitVec 2) : Prop := sel ≠ 3#2

/-- A command whose word the decoder accepts: the buffer commands name two buffers, the others have no
operand field at all. -/
def Instr.wellFormed : Instr → Bool
  | .nop => true
  | .keyinit => true
  | .encb => true
  | .decb => true
  | .pad src dst => decide (SelectsBuffer src ∧ SelectsBuffer dst)
  | .cbcenc src dst => decide (SelectsBuffer src ∧ SelectsBuffer dst)
  | .cbcencInj src dst => decide (SelectsBuffer src ∧ SelectsBuffer dst)
  | .cbcdec src dst => decide (SelectsBuffer src ∧ SelectsBuffer dst)
  | .unpad src dst => decide (SelectsBuffer src ∧ SelectsBuffer dst)

/-- `Instr.wellFormed` as a proposition. -/
abbrev Instr.WellFormed (i : Instr) : Prop := i.wellFormed = true

end Sys2Proof
end

