-- ==== Sys2Proof/Decode.lean ====
section
/-! DEFINITION. The decoder of the 64-bit command word, total and rejecting by error code, in the order of
checks of spec/30_encoding.md R126, and the encoder of R130. The length check of R126 needs the state and
stands in Machine/Ops.lean. -/

namespace Sys2Proof

/-- OP = v[3:0] (R121). -/
def opField (v : Word) : Nat := (v.extractLsb' 0 4).toNat

/-- SRC = v[5:4] (R121). -/
def srcField (v : Word) : BitVec 2 := v.extractLsb' 4 2

/-- DST = v[7:6] (R121). -/
def dstField (v : Word) : BitVec 2 := v.extractLsb' 6 2

/-- IVSEL = v[8] (R121). -/
def ivselField (v : Word) : Bool := v.getLsbD 8

/-- RSVD = v[63:9] (R121). -/
def rsvdField (v : Word) : BitVec 55 := v.extractLsb' 9 55

/-- v[8:4], the operand fields together, zero for OP 0 to 3 (R125). -/
def operandFields (v : Word) : BitVec 5 := v.extractLsb' 4 5

/-- The opcode map (R124) with IVSEL (R123); no opcode above 7 is assigned. -/
def commandOf (op : Nat) (src dst : BitVec 2) (ivsel : Bool) : Option Instr :=
  match op with
  | 0 => some .nop
  | 1 => some .keyinit
  | 2 => some .encb
  | 3 => some .decb
  | 4 => some (.pad src dst)
  | 5 => some (if ivsel then .cbcencInj src dst else .cbcenc src dst)
  | 6 => some (.cbcdec src dst)
  | 7 => some (.unpad src dst)
  | _ => none

/-- The part of `check(v)` that reads the word alone (R126), in its order: the first failing check gives
the code. -/
def decode (v : Word) : Except CmdError Instr :=
  let op := opField v
  if 8 ≤ op then .error .illegalCmd
  else if rsvdField v ≠ 0 then .error .illegalCmd
  else if op ≤ 3 ∧ operandFields v ≠ 0 then .error .illegalCmd
  else if (op = 4 ∨ op = 6 ∨ op = 7) ∧ ivselField v = true then .error .illegalCmd
  else if 4 ≤ op ∧ (srcField v = 3 ∨ dstField v = 3) then .error .badBuf
  else
    match commandOf op (srcField v) (dstField v) (ivselField v) with
    | some i => .ok i
    | none => .error .illegalCmd

/-- A buffer command's word: OP | SRC << 4 | DST << 6, with IVSEL at bit 8 (R121, R130). -/
def bufferWord (op : BitVec 4) (src dst : BitVec 2) (ivsel : BitVec 1) : Word :=
  0#55 ++ ivsel ++ dst ++ src ++ op

/-- The command word of a command (R130). -/
def encode : Instr → Word
  | .nop => 0x0
  | .keyinit => 0x1
  | .encb => 0x2
  | .decb => 0x3
  | .pad src dst => bufferWord 4 src dst 0
  | .cbcenc src dst => bufferWord 5 src dst 0
  | .cbcencInj src dst => bufferWord 5 src dst 1
  | .cbcdec src dst => bufferWord 6 src dst 0
  | .unpad src dst => bufferWord 7 src dst 0

/-- The 64-bit command word that the `nbits` bits of `w` stand for, every bit above them zero. A command is
one 64-bit word, never stored in memory (R120), so there is no byte order to apply. -/
def tableWord (nbits w : Nat) : Word := BitVec.ofNat 64 (w % 2 ^ nbits)

/-- The command the decoder reads from a table row's bits; a row of more than 64 bits is no command (R120). -/
def decodeTableWord (nbits w : Nat) : Option Instr :=
  if nbits ≤ 64 then
    match decode (tableWord nbits w) with
    | .ok i => some i
    | .error _ => none
  else none

end Sys2Proof
end

