-- ==== Sys2Proof/Config.lean ====
section
/-! DEFINITION. What an implementation fixes: the build parameters of spec/00_scope.md R9 as one record,
and the one free value of the machine, the IV source's answers (R17). The parameters the source itself
fixes (R8) stand here as named numbers. -/

namespace Sys2Proof

/-- The build parameters the source leaves open (R9). "A model takes each as an argument": the argument
stands in `Machine.State.cfg`, which no step changes (log entry 1). -/
structure Params where
  /-- P_KEY, the 16 CipherKey bytes K[0..15]. -/
  key : Vector Byte 16
  /-- P_MAX_SIZE, the size in bytes of each data buffer. -/
  maxSize : Nat
  /-- P_BASE, the base address of the block on the host bus. -/
  base : Nat
  deriving DecidableEq, Repr

/-- The constraints R9 puts on the parameters. -/
abbrev Params.wf (p : Params) : Prop :=
  p.maxSize % 16 = 0 ∧ 32 ≤ p.maxSize ∧ p.maxSize ≤ 65536 ∧ p.base % 0x40000 = 0

/-- The parameters of `State.reset`: R9's reference value of P_MAX_SIZE and the test key of its "Test
vectors use K[i] = i". DESIGN CHOICE (log entry 1): the key, and P_BASE = 0. -/
def Params.reference : Params where
  key := #v[0x00, 0x01, 0x02, 0x03, 0x04, 0x05, 0x06, 0x07, 0x08, 0x09, 0x0A, 0x0B, 0x0C, 0x0D, 0x0E, 0x0F]
  maxSize := 256
  base := 0

namespace Config

/-- BLOCK_BYTES = IV_BYTES = 16 (R8). -/
def blockBytes : Nat := 16

/-- PAD_LIMIT = 16 (R8). -/
def padLimit : Nat := 16

/-- ALPHA, the rotation of x, = 8 (R8). -/
def alpha : Nat := 8

/-- BETA, the rotation of y, = 3 (R8). -/
def beta : Nat := 3

/-- The size of the block's address window (R81). -/
def windowBytes : Nat := 0x40000

/-- The IV source P_IV_SOURCE: what draw number `n` returns, 16 bytes with byte k in bits [8k+7:8k].
A free value under no law (R17, R282, 93_implementation_defined.md U4): no body, so nothing can be
proved of it. Log entry 6. -/
opaque drawnIv : Nat → BitVec 128

end Config
end Sys2Proof
end

