-- ==== Sys2Proof/Machine/State.lean ====
section
/-! DEFINITION. The state of the CSAT-ARX core as plain data (spec/10_state.md R30, R55), the events that
move it (spec/00_scope.md R21), the reasons a step stops, and the state after reset. -/

namespace Sys2Proof.Machine

/-- The three data buffers (R52); LEN0, LEN1, LEN2 go with them (R122). -/
inductive Buf where
  | b0
  | b1
  | b2
  deriving DecidableEq, Repr

/-- A 128-bit block as its two 64-bit words (R2, R88: x is the first word). -/
structure Block where
  x : Word
  y : Word
  deriving DecidableEq, Repr

/-- What a host access does. -/
inductive AccessKind where
  | read
  /-- A write of the given 64 bits of bus data; a write of width 1 uses bits [7:0] (R85). -/
  | write (data : Word)
  deriving DecidableEq, Repr

/-- One host access: `width` bytes at host address `addr` (R80, R81). Every width can be attempted; R83 says
which are answered with a bus error. -/
structure Access where
  kind : AccessKind
  width : Nat
  addr : Nat
  deriving DecidableEq, Repr

/-- One event of the environment (R21): a host access, the engine's turn, or the reset input (R300). -/
inductive Event where
  | host (a : Access)
  | engine
  | reset
  deriving DecidableEq, Repr

/-- The block's answer to a host access: whether it is an error response, and the data of a read
(R159, R270: an error response to a read carries data 0). A write returns no data. -/
structure BusResponse where
  error : Bool
  data : Option Word
  deriving DecidableEq, Repr

/-- The machine's state. Every field of the first group is the spec's (R30, R55); the last group is the
model's own (INVENTORY.md, State). -/
structure State where
  /-- STATUS.BUSY (R36). -/
  busy : Bool
  /-- STATUS.DONE (R37). -/
  done : Bool
  /-- STATUS.ERR (R38). -/
  err : Bool
  /-- STATUS.KS_VALID (R39). -/
  ksValid : Bool
  /-- STATUS.PADERR (R40). -/
  padErr : Bool
  /-- STATUS.ERRCODE (R41). -/
  errCode : BitVec 4
  /-- BLK_X (R43). -/
  blkX : Word
  /-- BLK_Y (R43). -/
  blkY : Word
  /-- IV_LO (R44). -/
  ivLo : Word
  /-- IV_HI (R44). -/
  ivHi : Word
  /-- LEN0 (R45). -/
  len0 : Word
  /-- LEN1 (R45). -/
  len1 : Word
  /-- LEN2 (R45). -/
  len2 : Word
  /-- RK[0..31] (R46). -/
  rk : Vector Word 32
  /-- CV, the chaining value (R49). -/
  cv : Block
  /-- PEND, the pending command (R50). -/
  pend : Option Instr
  /-- BUF0, BUF1, BUF2 with their written marks (R52, R57): the bytes written since reset, keyed by
  block-relative address (R82), addresses strictly rising. -/
  mem : List Host.Cell
  /-- The build parameters (R9), which no step changes (log entry 1). -/
  cfg : Params
  /-- How many IVs the IV source has answered (R17, log entry 6). -/
  draws : Nat
  /-- The events to come, first one first (R21, log entry 7). -/
  inputs : List Event
  /-- The answer to the last host access, none when it did not reach the block (R159, log entries 9 and 10). -/
  resp : Option BusResponse
  deriving DecidableEq, Repr

/-- Why a step stops: the model-level outcome `fault Unwritten` (R16, R159), and nothing else. -/
inductive Fault where
  /-- `Unwritten(RK[i])`: raised by the host's read of RK[i] while KS_VALID = 0, which R47 tells a model to treat as this
  fault (93_implementation_defined.md U1, vector BE16). Safe: the chip goes on with a value the spec does not fix. -/
  | unwrittenRk (i : Fin 32)
  /-- `Unwritten(BUF[b][o])`: raised by the host's read, or a command's source read, of a buffer byte not
  written since reset (R57). Safe: the chip goes on with whatever the RAM holds. -/
  | unwrittenByte (b : Buf) (o : Nat)
  deriving DecidableEq, Repr

/-- Why an instruction has no meaning here. No meaning and no step of this model refuses (R159). -/
inductive Refusal where
  /-- Would be raised by `exec`'s arm of an instruction not modelled yet; no arm is. Safe. -/
  | notModelled (mnemonic : String)
  deriving DecidableEq, Repr

/-- The block right after reset (R55, R301) with the given build parameters. RK (log entry 2) and CV
(log entry 3) are unspecified by the spec and zero here: DESIGN CHOICE. The list of written buffer bytes is
empty: every written mark is cleared (R57). -/
def State.resetWith (p : Params) : State where
  busy := false
  done := false
  err := false
  ksValid := false
  padErr := false
  errCode := 0
  blkX := 0
  blkY := 0
  ivLo := 0
  ivHi := 0
  len0 := 0
  len1 := 0
  len2 := 0
  rk := Vector.replicate 32 0
  cv := ⟨0, 0⟩
  pend := none
  mem := []
  cfg := p
  draws := 0
  inputs := []
  resp := none

/-- The machine right after reset, with the reference parameters (log entry 1). -/
def State.reset : State := State.resetWith Params.reference

end Sys2Proof.Machine
end

