-- ==== Sys2Proof/Machine/Operands.lean ====
section
/-! DEFINITION. Every operand form of the commands and the word and byte primitives of the spec:
rotations (00_scope.md R11), byte order (R13, 20_memory.md R87 to R89), buffer selectors (30_encoding.md
R122), lengths (10_state.md R45), the injected and the drawn IV (43_cbc_chainer.md R230), and the length
bounds (30_encoding.md R126 `LenOK`). -/

namespace Sys2Proof.Machine

/-- `ROR(v, r)` for 0 < r < 64 (R11). -/
def ror (v : Word) (r : Nat) : Word := (v >>> r) ||| (v <<< (64 - r))

/-- `ROL(v, r)` for 0 < r < 64 (R11). -/
def rol (v : Word) (r : Nat) : Word := (v <<< r) ||| (v >>> (64 - r))

/-- `LE64(S)`: byte 0 is least significant (R13). -/
def le64 : Bytes → Word
  | [] => 0
  | b :: rest => b.setWidth 64 ||| (le64 rest <<< 8)

/-- `BYTES64(v)`, the eight bytes of a word, least significant first (R13). -/
def bytes64 (v : Word) : Bytes :=
  [v.extractLsb' 0 8, v.extractLsb' 8 8, v.extractLsb' 16 8, v.extractLsb' 24 8,
   v.extractLsb' 32 8, v.extractLsb' 40 8, v.extractLsb' 48 8, v.extractLsb' 56 8]

/-- `S XOR T`, bytewise (R13). -/
def xorBytes (s t : Bytes) : Bytes := List.zipWith (· ^^^ ·) s t

/-- `BLOCK(S)` of a 16-byte sequence: x from the first 8 bytes, y from the last 8 (R88). -/
def blockOf (s : Bytes) : Block := ⟨le64 (s.take 8), le64 ((s.drop 8).take 8)⟩

/-- `UNBLOCK(x, y)` (R88). -/
def unblock (b : Block) : Bytes := bytes64 b.x ++ bytes64 b.y

/-- `low = LE64(K[0..8))` (R89). -/
def keyLow (key : Vector Byte 16) : Word := le64 (key.toList.take 8)

/-- `high = LE64(K[8..16))` (R89). -/
def keyHigh (key : Vector Byte 16) : Word := le64 (key.toList.drop 8)

/-- The buffer a field selects; value 3 selects none (R122). -/
def bufOf (sel : BitVec 2) : Option Buf :=
  match sel.toNat with
  | 0 => some .b0
  | 1 => some .b1
  | 2 => some .b2
  | _ => none

/-- The number of a buffer (R122). -/
def bufIndex : Buf → Nat
  | .b0 => 0
  | .b1 => 1
  | .b2 => 2

/-- The block-relative address of `BUF[b][o]` (R82). -/
def bufAddr (b : Buf) (o : Nat) : Nat := 0x10000 * (bufIndex b + 1) + o

/-- `LEN[b]` (R14, R45). -/
def State.len (s : State) : Buf → Word
  | .b0 => s.len0
  | .b1 => s.len1
  | .b2 => s.len2

/-- `LEN[b] <- v` (R14, R45). -/
def State.setLen (s : State) (b : Buf) (v : Word) : State :=
  match b with
  | .b0 => { s with len0 := v }
  | .b1 => { s with len1 := v }
  | .b2 => { s with len2 := v }

/-- The injected IV, `BYTES64(IV_LO) ++ BYTES64(IV_HI)` (R44, R230). -/
def injectedIv (s : State) : Bytes := bytes64 s.ivLo ++ bytes64 s.ivHi

/-- The 16 bytes `draw IV16()` returns when `n` draws were made before it (R17, log entry 6). -/
def drawnIvBytes (n : Nat) : Bytes :=
  bytes64 ((Config.drawnIv n).extractLsb' 0 64) ++ bytes64 ((Config.drawnIv n).extractLsb' 64 64)

/-- `LenOK(PAD, n)` (R126, R226). The lengths are compared as whole unsigned numbers, without truncation. -/
def lenOkPad (p : Params) (n : Word) : Bool := decide (n.toNat ≤ p.maxSize)

/-- `LenOK(CBCENC, n)` (R126, R232). -/
def lenOkCbcenc (p : Params) (n : Word) : Bool :=
  decide (n.toNat % 16 = 0 ∧ n.toNat + 16 ≤ p.maxSize)

/-- `LenOK(CBCDEC, n)` (R126, R237). -/
def lenOkCbcdec (p : Params) (n : Word) : Bool :=
  decide (n.toNat % 16 = 0 ∧ 16 ≤ n.toNat ∧ n.toNat ≤ p.maxSize)

/-- `LenOK(UNPAD, n)` (R126). -/
def lenOkUnpad (p : Params) (n : Word) : Bool := decide (1 ≤ n.toNat ∧ n.toNat ≤ p.maxSize)

/-- `LenOK(OP, LEN[SRC])` of R126 for a buffer command whose SRC field is `src`; a field that selects no
buffer has no length to read (R262). -/
def srcLenOk (ok : Params → Word → Bool) (src : BitVec 2) (s : State) : Bool :=
  match bufOf src with
  | some b => ok s.cfg (s.len b)
  | none => false

/-- The length check of `check(v)` for a decoded command (R126); OP 0 to 3 have none. -/
def lenOk (i : Instr) (s : State) : Bool :=
  match i with
  | .nop => true
  | .keyinit => true
  | .encb => true
  | .decb => true
  | .pad src _ => srcLenOk lenOkPad src s
  | .cbcenc src _ => srcLenOk lenOkCbcenc src s
  | .cbcencInj src _ => srcLenOk lenOkCbcenc src s
  | .cbcdec src _ => srcLenOk lenOkCbcdec src s
  | .unpad src _ => srcLenOk lenOkUnpad src s

/-- The code a rejected issue writes to ERRCODE (R41, R261). -/
def errorCode : CmdError → BitVec 4
  | .illegalCmd => 1
  | .badBuf => 2
  | .badLen => 3

end Sys2Proof.Machine
end

