-- ==== Sys2Proof/Machine/Flags.lean ====
section
/-! DEFINITION. The flags: the STATUS register as the host reads and writes it (spec/10_state.md R35, R42)
and the CONFIG constant (R33). The block has no condition codes (R54). -/

namespace Sys2Proof.Machine

/-- STATUS as read by the host, bit 0 rightmost; the reserved bits [7:5] and [63:12] read 0 (R35). -/
def statusWord (s : State) : Word :=
  0#52 ++ s.errCode ++ 0#3 ++ BitVec.ofBool s.padErr ++ BitVec.ofBool s.ksValid ++
    BitVec.ofBool s.err ++ BitVec.ofBool s.done ++ BitVec.ofBool s.busy

/-- A host write of `v` to STATUS: write-1-to-clear of DONE, ERR with ERRCODE, and PADERR; every other bit of
`v` is ignored (R42). It is also the only way back from a command error (R265). -/
def writeStatus (v : Word) (s : State) : State :=
  { s with
    done := s.done && !v.getLsbD 1
    err := s.err && !v.getLsbD 2
    errCode := if v.getLsbD 2 then 0 else s.errCode
    padErr := s.padErr && !v.getLsbD 4 }

/-- CONFIG = zext_64(P_MAX_SIZE) << 32 | 0x01_10_40_20 (R33): MAX_SIZE, REV, BLOCK_BYTES, WORD_BITS, ROUNDS. -/
def configWord (p : Params) : Word := (BitVec.ofNat 64 p.maxSize <<< 32) ||| 0x01104020#64

end Sys2Proof.Machine
end

