-- ==== Sys2Proof/Machine/Ops.lean ====
section
/-! DEFINITION. The named operations over the state: the memory of written buffer bytes and its canonical
form, BufRead and BufWrite (spec/00_scope.md R15, 10_state.md R57), the issue of a command (40_command_interface.md
R151 to R153), the command error as the one operation that takes it (R152, 60_exceptions.md R261 to R266), the
completion (R155), and the snapshot discipline of the buffer commands (R158). -/

namespace Sys2Proof.Machine

/-! ### Memory -/

/-- The canonical form: addresses strictly rising. An unlisted byte reads as no value (R57), so no entry can
equal what an unlisted address reads as. -/
def Memory.wf : List Host.Cell → Bool
  | [] => true
  | [_] => true
  | c :: d :: rest => decide (c.1 < d.1) && Memory.wf (d :: rest)

/-- The byte written at a block-relative address, none when its written mark is clear (R57). -/
def Memory.get : List Host.Cell → Nat → Option Byte
  | [], _ => none
  | c :: rest, a => if c.1 = a then some c.2 else Memory.get rest a

/-- Store one byte and set its written mark, keeping the canonical form. -/
def Memory.set : List Host.Cell → Nat → Byte → List Host.Cell
  | [], a, v => [(a, v)]
  | c :: rest, a, v =>
    if a < c.1 then (a, v) :: c :: rest
    else if a = c.1 then (a, v) :: rest
    else c :: Memory.set rest a v

/-- Store a byte sequence at rising addresses. -/
def Memory.setBytes : List Host.Cell → Nat → Bytes → List Host.Cell
  | m, _, [] => m
  | m, a, v :: rest => Memory.setBytes (Memory.set m a v) (a + 1) rest

/-- `BUF[b][o]`, none when it is unwritten since reset (R15, R57). -/
def State.byteAt (s : State) (b : Buf) (o : Nat) : Option Byte := Memory.get s.mem (bufAddr b o)

/-- `BufRead(b, o, n)` (R15): the bytes, or `fault Unwritten` at the first unwritten one (R57; which one it
names is log entry 15). -/
def State.bufRead (s : State) (b : Buf) (o : Nat) : Nat → Except Fault Bytes
  | 0 => .ok []
  | n + 1 =>
    match s.byteAt b o with
    | none => .error (.unwrittenByte b o)
    | some v =>
      match s.bufRead b (o + 1) n with
      | .ok rest => .ok (v :: rest)
      | .error f => .error f

/-- `BufWrite(b, o, S)` (R15). -/
def State.bufWrite (s : State) (b : Buf) (o : Nat) (data : Bytes) : State :=
  { s with mem := Memory.setBytes s.mem (bufAddr b o) data }

/-! ### Issue -/

/-- A rejected issue (R152), the one operation by which a command error is taken: it saves ERR, ERRCODE and
DONE and nothing else (R261 to R264); `writeStatus` is the way back (R265). -/
def rejectIssue (e : CmdError) (s : State) : State :=
  { s with err := true, errCode := errorCode e, done := true }

/-- An accepted issue (R153). -/
def acceptIssue (i : Instr) (s : State) : State :=
  { s with pend := some i, busy := true, done := false }

/-- `check(v)` (R126): the word's own checks first, then the length. -/
def check (v : Word) (s : State) : Except CmdError Instr :=
  match decode v with
  | .error e => .error e
  | .ok i => if lenOk i s then .ok i else .error .badLen

/-- The issue of command word `v` while BUSY = 0 (R151). -/
def issue (v : Word) (s : State) : State :=
  match check v s with
  | .error e => rejectIssue e s
  | .ok i => acceptIssue i s

/-! ### Completion -/

/-- What every completion does after Exec: PEND <- none, BUSY <- 0, DONE <- 1 (R155). -/
def finish (s : State) : State := { s with pend := none, busy := false, done := true }

/-- The end of a pending command whose own issue check does not hold. No accepted command is in that case
(R155: "every accepted command has in-range operands by its issue check"); the model then rejects it as R152
does and leaves nothing pending. DESIGN CHOICE, log entry 12. -/
def failedCheck (e : CmdError) (s : State) : State := finish (rejectIssue e s)

/-- A buffer command (R158) with source field `src`, destination field `dst`, length bound `ok` and `effect`,
which gives from the snapshot S the output sequence O and the state with every effect but the writes to
BUF[DST] and LEN[DST]. Those two come last, so SRC = DST is defined in place. -/
def bufferCommand (ok : Params → Word → Bool) (effect : Bytes → State → Bytes × State)
    (src dst : BitVec 2) (s : State) : Host.Outcome State Fault Refusal :=
  match bufOf src, bufOf dst with
  | some b, some d =>
    if ok s.cfg (s.len b) then
      match s.bufRead b 0 (s.len b).toNat with
      | .error f => .fault f
      | .ok snapshot =>
        let out := effect snapshot s
        .next (finish ((out.2.bufWrite d 0 out.1).setLen d (BitVec.ofNat 64 out.1.length)))
    else .next (failedCheck .badLen s)
  | _, _ => .next (failedCheck .badBuf s)

end Sys2Proof.Machine
end

