-- ==== Sys2Proof/Machine/Bus.lean ====
section
/-! DEFINITION. The host's bus accesses: address decode (spec/20_memory.md R81, R82), the register map
(10_state.md R32), the bus-error conditions (60_exceptions.md R270, R271), reads and writes (R84 to R86). -/

namespace Sys2Proof.Machine

/-- The host-visible registers (R32). -/
inductive Reg where
  | config
  | cmd
  | status
  | blkX
  | blkY
  | ivLo
  | ivHi
  | len (b : Buf)
  | rk (i : Fin 32)
  deriving DecidableEq, Repr

/-- A register's offset in the register window (R32). -/
def regOffset : Reg → Nat
  | .config => 0x000
  | .cmd => 0x008
  | .status => 0x010
  | .blkX => 0x018
  | .blkY => 0x020
  | .ivLo => 0x028
  | .ivHi => 0x030
  | .len b => 0x038 + 8 * bufIndex b
  | .rk i => 0x100 + 8 * i.val

/-- The register at an offset, none where it is reserved (R32, R48) or inside no register's start. -/
def regAt (o : Nat) : Option Reg :=
  if h : 0x100 ≤ o ∧ o < 0x200 then
    if o % 8 = 0 then some (.rk ⟨(o - 0x100) / 8, by omega⟩) else none
  else
    match o with
    | 0x000 => some .config
    | 0x008 => some .cmd
    | 0x010 => some .status
    | 0x018 => some .blkX
    | 0x020 => some .blkY
    | 0x028 => some .ivLo
    | 0x030 => some .ivHi
    | 0x038 => some (.len .b0)
    | 0x040 => some (.len .b1)
    | 0x048 => some (.len .b2)
    | _ => none

/-- Where a block-relative address lies (R81): the register window with the offset, or a buffer window with
the buffer and the offset in it (R82). -/
inductive Target where
  | register (o : Nat)
  | buffer (b : Buf) (o : Nat)
  deriving DecidableEq, Repr

/-- The block-relative address of a host address, none outside [P_BASE, P_BASE + 0x40000) (R81). -/
def blockAddr (p : Params) (addr : Nat) : Option Nat :=
  if p.base ≤ addr ∧ addr < p.base + Config.windowBytes then some (addr - p.base) else none

/-- The space a block-relative address belongs to, by its bits [17:16] (R81). -/
def targetOf (a : Nat) : Target :=
  match a / 0x10000 with
  | 0 => .register a
  | 1 => .buffer .b0 (a - bufAddr .b0 0)
  | 2 => .buffer .b1 (a - bufAddr .b1 0)
  | _ => .buffer .b2 (a - bufAddr .b2 0)

/-- R270 (a): a width other than 1 and 8, or a misaligned width 8 (R83). -/
def badWidth (width a : Nat) : Bool := decide (¬ (width = 1 ∨ (width = 8 ∧ a % 8 = 0)))

/-- R270 (b) to (e) for the access's target: a 1-byte access to the register window, a reserved offset, a write
to CONFIG or RK[i], a buffer access with bytes at offsets ≥ P_MAX_SIZE. -/
def badTarget (p : Params) (kind : AccessKind) (width : Nat) : Target → Bool
  | .register o =>
    decide (width = 1) ||
      match regAt o, kind with
      | none, _ => true
      | some .config, .write _ => true
      | some (.rk _), .write _ => true
      | some _, _ => false
  | .buffer _ o => decide (p.maxSize < o + width)

/-- The accesses allowed while BUSY = 1: 8-byte reads of STATUS and CONFIG and 8-byte writes to STATUS (R271). -/
def allowedWhileBusy (kind : AccessKind) (width : Nat) : Target → Bool
  | .register o =>
    decide (width = 8) &&
      match regAt o, kind with
      | some .status, _ => true
      | some .config, .read => true
      | _, _ => false
  | .buffer _ _ => false

/-- The bus-error conditions (R270); no priority among them is observable (R272). -/
def isBusError (s : State) (acc : Access) (a : Nat) : Bool :=
  badWidth acc.width a || badTarget s.cfg acc.kind acc.width (targetOf a) ||
    (s.busy && !allowedWhileBusy acc.kind acc.width (targetOf a))

/-- The answer to a bus error: data 0 for a read, no data for a write (R270). -/
def errorResponse : AccessKind → BusResponse
  | .read => ⟨true, some 0⟩
  | .write _ => ⟨true, none⟩

/-- The value a host read of a register returns (R84): CMD reads 0 (R34), RK[i] is
`fault Unwritten(RK[i])` while KS_VALID = 0, as R47 says of a model. -/
def readReg (r : Reg) (s : State) : Except Fault Word :=
  match r with
  | .config => .ok (configWord s.cfg)
  | .cmd => .ok 0
  | .status => .ok (statusWord s)
  | .blkX => .ok s.blkX
  | .blkY => .ok s.blkY
  | .ivLo => .ok s.ivLo
  | .ivHi => .ok s.ivHi
  | .len b => .ok (s.len b)
  | .rk i => if s.ksValid then .ok s.rk[i] else .error (.unwrittenRk i)

/-- The effect of a host write to a register (R84). CONFIG and RK[i] take no write: theirs is a bus error and
does not come here. -/
def writeReg (r : Reg) (v : Word) (s : State) : State :=
  match r with
  | .config => s
  | .cmd => issue v s
  | .status => writeStatus v s
  | .blkX => { s with blkX := v }
  | .blkY => { s with blkY := v }
  | .ivLo => { s with ivLo := v }
  | .ivHi => { s with ivHi := v }
  | .len b => s.setLen b v
  | .rk _ => s

/-- A read that is no bus error: a register (R84), a buffer byte zero-extended (R85), or a buffer word, little-endian
(R86). A reserved register offset is a bus error and does not come here. -/
def readTarget (s : State) (width : Nat) : Target → Except Fault Word
  | .register o =>
    match regAt o with
    | some r => readReg r s
    | none => .ok 0
  | .buffer b o =>
    match s.bufRead b o width with
    | .ok bytes => .ok (le64 bytes)
    | .error f => .error f

/-- A write that is no bus error: a register (R84), or the low `width` bytes of the bus data to a buffer, lowest
byte first (R85, R86). -/
def writeTarget (s : State) (width : Nat) (v : Word) : Target → State
  | .register o =>
    match regAt o with
    | some r => writeReg r v s
    | none => s
  | .buffer b o => s.bufWrite b o ((bytes64 v).take width)

/-- The answer the host gets. -/
def respond (r : Option BusResponse) (s : State) : State := { s with resp := r }

/-- One host access (R80, R159): an address outside the window does not reach the block (R81); a bus error has an
error response and no effect (R270); otherwise the read or the write happens. -/
def hostAccess (acc : Access) (s : State) : Host.Outcome State Fault Refusal :=
  match blockAddr s.cfg acc.addr with
  | none => .next (respond none s)
  | some a =>
    if isBusError s acc a then .next (respond (some (errorResponse acc.kind)) s)
    else
      match acc.kind with
      | .read =>
        match readTarget s acc.width (targetOf a) with
        | .ok v => .next (respond (some ⟨false, some v⟩) s)
        | .error f => .fault f
      | .write v => .next (respond (some ⟨false, none⟩) (writeTarget s acc.width v (targetOf a)))

end Sys2Proof.Machine
end

