-- ==== Sys2Proof/Machine/KeySchedule.lean ====
section
/-! DEFINITION. The key schedule, ENSURE_KS and KEYINIT (spec/41_keyschedule.md). -/

namespace Sys2Proof.Machine

/-- One iteration's accumulator (R181): rotate right by 8, add rk[i], XOR the zero-extended index. -/
def nextAccumulator (a k : Word) (i : Nat) : Word :=
  (ror a Config.alpha + k) ^^^ BitVec.ofNat 64 i

/-- One iteration's round key (R181): rk[i] rotated left by 3, XOR the new accumulator. -/
def nextRoundKey (a' k : Word) : Word := rol k Config.beta ^^^ a'

/-- The `n` round keys after `k` = rk[i], with accumulator `a` (R181). -/
def roundKeysFrom (a k : Word) (i : Nat) : Nat → List Word
  | 0 => []
  | n + 1 =>
    let a' := nextAccumulator a k i
    let k' := nextRoundKey a' k
    k' :: roundKeysFrom a' k' (i + 1) n

/-- One key follows for each of the `n` iterations. -/
theorem roundKeysFrom_length (a k : Word) (i n : Nat) : (roundKeysFrom a k i n).length = n := by
  induction n generalizing a k i with
  | zero => rfl
  | succ n ih => simp [roundKeysFrom, ih]

/-- rk[0] and the 31 keys after it, for i in 0..30 (R181). -/
def roundKeyList (key : Vector Byte 16) : List Word :=
  keyLow key :: roundKeysFrom (keyHigh key) (keyLow key) 0 31

/-- "Produces exactly 32 round keys" (R180). -/
theorem roundKeyList_length (key : Vector Byte 16) : (roundKeyList key).toArray.size = 32 := by
  simp [roundKeyList, roundKeysFrom_length]

/-- `KeySchedule(K)` (R181). -/
def keySchedule (key : Vector Byte 16) : Vector Word 32 :=
  ⟨(roundKeyList key).toArray, roundKeyList_length key⟩

/-- `ENSURE_KS()` (R183): compute the round keys once, a no-op while KS_VALID = 1. -/
def ensureKs (s : State) : State :=
  if s.ksValid then s else { s with rk := keySchedule s.cfg.key, ksValid := true }

/-- KEYINIT (R185): `Exec(KEYINIT) = ENSURE_KS()`, then the completion. -/
def execKeyinit (s : State) : Host.Outcome State Fault Refusal := .next (finish (ensureKs s))

end Sys2Proof.Machine
end

