-- ==== Sys2Proof/Machine/BlockCipher.lean ====
section
/-! DEFINITION. The round engine, ENCB and DECB (spec/42_block_cipher.md). -/

namespace Sys2Proof.Machine

/-- `EncRound(x, y, k)` (R200): the XOR into y uses the x of this round. -/
def encRound (b : Block) (k : Word) : Block :=
  let x := (ror b.x Config.alpha + b.y) ^^^ k
  ⟨x, rol b.y Config.beta ^^^ x⟩

/-- `DecRound(x, y, k)` (R201): the subtraction uses the y of this round. -/
def decRound (b : Block) (k : Word) : Block :=
  let y := ror (b.y ^^^ b.x) Config.beta
  ⟨rol ((b.x ^^^ k) - y) Config.alpha, y⟩

/-- `Encrypt(x, y)`: the rounds with RK[0], RK[1], … in ascending order (R200). -/
def encrypt (rk : Vector Word 32) (b : Block) : Block := rk.toList.foldl encRound b

/-- `Decrypt(x, y)`: the rounds with RK[31] down to RK[0] (R201). -/
def decrypt (rk : Vector Word 32) (b : Block) : Block :=
  rk.toList.foldr (fun k acc => decRound acc k) b

/-- `EncBytes(S)` (R204). -/
def encBytes (rk : Vector Word 32) (s : Bytes) : Bytes := unblock (encrypt rk (blockOf s))

/-- `DecBytes(S)` (R204). -/
def decBytes (rk : Vector Word 32) (s : Bytes) : Bytes := unblock (decrypt rk (blockOf s))

/-- `(BLK_X, BLK_Y) <- b` (R43). -/
def setBlk (b : Block) (s : State) : State := { s with blkX := b.x, blkY := b.y }

/-- ENCB (R205): ENSURE_KS, then the block registers encrypted in place, both read before either is written. -/
def execEncb (s : State) : Host.Outcome State Fault Refusal :=
  let t := ensureKs s
  .next (finish (setBlk (encrypt t.rk ⟨t.blkX, t.blkY⟩) t))

/-- DECB (R206): ENSURE_KS, then the block registers decrypted in place. -/
def execDecb (s : State) : Host.Outcome State Fault Refusal :=
  let t := ensureKs s
  .next (finish (setBlk (decrypt t.rk ⟨t.blkX, t.blkY⟩) t))

end Sys2Proof.Machine
end

