-- ==== Sys2Proof/Machine/CbcChainer.lean ====
section
/-! DEFINITION. The CBC chainer: padding, chaining, unpadding, and PAD, CBCENC, CBCENC.INJ, CBCDEC and UNPAD
(spec/43_cbc_chainer.md). -/

namespace Sys2Proof.Machine

/-- `PadLen(n) = 16 * ceil(n / 16)` (R222). -/
def padLen (n : Nat) : Nat := 16 * ((n + 15) / 16)

/-- `PadVal(n) = PadLen(n) - n` (R222). -/
def padVal (n : Nat) : Nat := padLen n - n

/-- `Pad(S)` (R223). No block is appended when the length is a multiple of 16 (R224). -/
def padBytes (s : Bytes) : Bytes :=
  s ++ List.replicate (padVal s.length) (BitVec.ofNat 8 (padVal s.length))

/-- The blocks of `CbcEnc` after the IV (R233): `n` blocks of `p` from chaining value `cv`; the ciphertext and
the last chaining value. -/
def cbcEncBlocks (rk : Vector Word 32) : Nat → Bytes → Bytes → Bytes × Bytes
  | 0, _, cv => ([], cv)
  | n + 1, p, cv =>
    let c := encBytes rk (xorBytes (p.take 16) cv)
    let rest := cbcEncBlocks rk n (p.drop 16) c
    (c ++ rest.1, rest.2)

/-- `CbcEnc(P, IV)` (R233): the IV as the first 16 output bytes, then one block for each plaintext block. -/
def cbcEnc (rk : Vector Word 32) (p iv : Bytes) : Bytes × Bytes :=
  let out := cbcEncBlocks rk (p.length / 16) p iv
  (iv ++ out.1, out.2)

/-- The blocks of `CbcDec` after the IV (R235): each decrypted and XORed with the ciphertext block before it. -/
def cbcDecBlocks (rk : Vector Word 32) : Nat → Bytes → Bytes → Bytes × Bytes
  | 0, _, cv => ([], cv)
  | n + 1, c, cv =>
    let p := xorBytes (decBytes rk (c.take 16)) cv
    let rest := cbcDecBlocks rk n (c.drop 16) (c.take 16)
    (p ++ rest.1, rest.2)

/-- `CbcDec(C)` (R235): the first 16 bytes are the initial chaining value and are not decrypted. -/
def cbcDec (rk : Vector Word 32) (c : Bytes) : Bytes × Bytes :=
  cbcDecBlocks rk ((c.length - 16) / 16) (c.drop 16) (c.take 16)

/-- `Unpad(S)` (R240): the length kept and whether the claimed pad value, the last byte, is valid. R241's issue
check leaves no empty S. -/
def unpadLen (s : Bytes) : Nat × Bool :=
  let v := (s.getLastD 0).toNat
  if Config.padLimit < v then (s.length, false)
  else if s.length < v then (s.length, false)
  else (s.length - v, true)

/-- What PAD computes from its snapshot (R225). -/
def padEffect (snapshot : Bytes) (s : State) : Bytes × State := (padBytes snapshot, s)

/-- What CBCENC computes from its snapshot with the given IV, after ENSURE_KS: the output, and CV set to the
last chaining value (R231). -/
def cbcencWith (iv snapshot : Bytes) (s : State) : Bytes × State :=
  let out := cbcEnc s.rk snapshot iv
  (out.1, { s with cv := blockOf out.2 })

/-- CBCENC with IVSEL = 0: one draw from the IV source (R230, R231). -/
def cbcencEffect (snapshot : Bytes) (s : State) : Bytes × State :=
  let t := ensureKs s
  cbcencWith (drawnIvBytes t.draws) snapshot { t with draws := t.draws + 1 }

/-- CBCENC with IVSEL = 1: the injected IV, no draw (R230, R231). -/
def cbcencInjEffect (snapshot : Bytes) (s : State) : Bytes × State :=
  let t := ensureKs s
  cbcencWith (injectedIv t) snapshot t

/-- What CBCDEC computes from its snapshot (R236). -/
def cbcdecEffect (snapshot : Bytes) (s : State) : Bytes × State :=
  let t := ensureKs s
  let out := cbcDec t.rk snapshot
  (out.1, { t with cv := blockOf out.2 })

/-- What UNPAD computes from its snapshot: the message, and PADERR set when the claim is invalid, otherwise
kept (R241). -/
def unpadEffect (snapshot : Bytes) (s : State) : Bytes × State :=
  let r := unpadLen snapshot
  (snapshot.take r.1, { s with padErr := s.padErr || !r.2 })

/-- PAD (R225). -/
def execPad (src dst : BitVec 2) (s : State) : Host.Outcome State Fault Refusal :=
  bufferCommand lenOkPad padEffect src dst s

/-- CBCENC, IVSEL = 0 (R231). -/
def execCbcenc (src dst : BitVec 2) (s : State) : Host.Outcome State Fault Refusal :=
  bufferCommand lenOkCbcenc cbcencEffect src dst s

/-- CBCENC.INJ, IVSEL = 1 (R231). -/
def execCbcencInj (src dst : BitVec 2) (s : State) : Host.Outcome State Fault Refusal :=
  bufferCommand lenOkCbcenc cbcencInjEffect src dst s

/-- CBCDEC (R236). -/
def execCbcdec (src dst : BitVec 2) (s : State) : Host.Outcome State Fault Refusal :=
  bufferCommand lenOkCbcdec cbcdecEffect src dst s

/-- UNPAD (R241). -/
def execUnpad (src dst : BitVec 2) (s : State) : Host.Outcome State Fault Refusal :=
  bufferCommand lenOkUnpad unpadEffect src dst s

end Sys2Proof.Machine
end

