-- ==== Sys2Proof/Machine/CommandInterface.lean ====
section
/-! DEFINITION. NOP (spec/40_command_interface.md section 4). -/

namespace Sys2Proof.Machine

/-- NOP (R160): `Exec(NOP) = skip`, then the completion (R155). -/
def execNop (s : State) : Host.Outcome State Fault Refusal := .next (finish s)

end Sys2Proof.Machine
end

