-- ==== Sys2Proof/Machine/Dispatch.lean ====
section
/-! DEFINITION. Execution dispatch, `Exec(cmd)` chosen by opcode (spec/40_command_interface.md R154). -/

namespace Sys2Proof.Machine

def exec (i : Instr) (s : State) : Host.Outcome State Fault Refusal :=
  match i with
  | .nop => Sys2Proof.Machine.execNop s
  | .keyinit => Sys2Proof.Machine.execKeyinit s
  | .encb => Sys2Proof.Machine.execEncb s
  | .decb => Sys2Proof.Machine.execDecb s
  | .pad src dst => Sys2Proof.Machine.execPad src dst s
  | .cbcenc src dst => Sys2Proof.Machine.execCbcenc src dst s
  | .cbcencInj src dst => Sys2Proof.Machine.execCbcencInj src dst s
  | .cbcdec src dst => Sys2Proof.Machine.execCbcdec src dst s
  | .unpad src dst => Sys2Proof.Machine.execUnpad src dst s

end Sys2Proof.Machine
end

