-- ==== Sys2Proof/Machine/Engine.lean ====
section
/-! DEFINITION. The engine's step (spec/40_command_interface.md R155), the reset input (70_reset_and_hazards.md
R300 to R302), and which of the agents an event lets move (00_scope.md R21). -/

namespace Sys2Proof.Machine

/-- The engine's one step, enabled exactly when BUSY = 1: it performs the pending command (R155). While BUSY = 0 the
engine has no step and the block holds its state (R285). -/
def engineStep (s : State) : Host.Outcome State Fault Refusal :=
  if s.busy then
    match s.pend with
    | some i => exec i s
    | none => .next s
  else .next s

/-- The reset input (R300 to R302): every piece of the block's state takes its reset value, and a pending command is
abandoned. The build parameters, the IV source's history, the host's coming events and the last answer are not the
block's state and stay. -/
def resetStep (s : State) : State :=
  { State.resetWith s.cfg with draws := s.draws, inputs := s.inputs, resp := s.resp }

/-- What one event does (R21). -/
def handle (e : Event) (s : State) : Host.Outcome State Fault Refusal :=
  match e with
  | .host acc => hostAccess acc s
  | .engine => engineStep s
  | .reset => .next (resetStep s)

/-- The coming events with the engine's turn first. With no event left the engine moves anyway. -/
def engineFirst : List Event → List Event
  | [] => []
  | e :: rest => .engine :: e :: rest

/-- The host access that delivers command word `v`: an aligned 8-byte write to CMD (R120). -/
def commandWrite (p : Params) (v : Word) : Access := ⟨.write v, 8, p.base + regOffset .cmd⟩

/-- `s` with the command word delivered: held in PEND as an accepted issue leaves it (R153) with the engine to move
next, or, when decoding rejects the word, as the host's CMD write that comes next. -/
def deliver (v : Word) (s : State) : State :=
  match decode v with
  | .ok i => { acceptIssue i s with inputs := engineFirst s.inputs }
  | .error _ => { s with inputs := .host (commandWrite s.cfg v) :: s.inputs }

end Sys2Proof.Machine
end

