-- ==== Sys2Proof/Machine/Step.lean ====
section
/-! DEFINITION. One step of the whole machine: the next event's (spec/00_scope.md R21), or, with no event left, the
engine's completion, which fairness asks for (70_reset_and_hazards.md R311). -/

namespace Sys2Proof.Machine

/-- One step. The first event of `inputs` is taken and handled. With none left the engine moves: a pending command
completes (R311), and with nothing pending the run is over and the block holds its state (R285, R319). -/
def step (s : State) : Host.Outcome State Fault Refusal :=
  match s.inputs with
  | [] => engineStep s
  | e :: rest => handle e { s with inputs := rest }

/-- `s` with the command whose bits are `w` put where the engine takes its next command, so that the next step runs it
(log entry 11). -/
def State.withFetchWord (s : State) (nbits w : Nat) : State := deliver (tableWord nbits w) s

end Sys2Proof.Machine
end

