-- ==== Sys2Proof/Machine/HostProgram.lean ====
section
/-! DEFINITION. The host's side of the interface: the access statements, data shorthand and pseudo-instructions of
spec/30_encoding.md R130 to R133 as the bus accesses and events they stand for. The host's own control flow is not
state of the block (R31), so POLL's loop is written out by how often it reads BUSY = 1. -/

namespace Sys2Proof.Machine

/-- A host statement (R131, R132), and a command statement, which is the CMD write of its word (R130). -/
inductive HostStmt where
  | wr (r : Reg) (v : Word)
  | rd (r : Reg)
  | wrb (b : Buf) (off : Nat) (v : Byte)
  | rdb (b : Buf) (off : Nat)
  | wrq (b : Buf) (off : Nat) (v : Word)
  | rdq (b : Buf) (off : Nat)
  | wrbytes (b : Buf) (off : Nat) (data : Bytes)
  | cmd (i : Instr)
  deriving DecidableEq, Repr

/-- `WRBYTES Bn[off], data`: one `WRB` per byte, in ascending order (R132). -/
def wrbytesAccesses (p : Params) (b : Buf) : Nat → Bytes → List Access
  | _, [] => []
  | off, v :: rest => ⟨.write (v.setWidth 64), 1, p.base + bufAddr b off⟩ :: wrbytesAccesses p b (off + 1) rest

/-- The bus accesses of a statement (R131). -/
def stmtAccesses (p : Params) : HostStmt → List Access
  | .wr r v => [⟨.write v, 8, p.base + regOffset r⟩]
  | .rd r => [⟨.read, 8, p.base + regOffset r⟩]
  | .wrb b off v => [⟨.write (v.setWidth 64), 1, p.base + bufAddr b off⟩]
  | .rdb b off => [⟨.read, 1, p.base + bufAddr b off⟩]
  | .wrq b off v => [⟨.write v, 8, p.base + bufAddr b off⟩]
  | .rdq b off => [⟨.read, 8, p.base + bufAddr b off⟩]
  | .wrbytes b off data => wrbytesAccesses p b off data
  | .cmd i => [commandWrite p (encode i)]

/-- A statement as events. -/
def stmtEvents (p : Params) (st : HostStmt) : List Event := (stmtAccesses p st).map .host

/-- `POLL` (R133) whose loop reads BUSY = 1 `k` times: then the engine moves, and the last read sees BUSY = 0. -/
def pollEvents (p : Params) (k : Nat) : List Event :=
  List.replicate k (.host ⟨.read, 8, p.base + regOffset .status⟩) ++
    [.engine, .host ⟨.read, 8, p.base + regOffset .status⟩]

/-- `CLRST` (R133): `WR STATUS, 0x16`. -/
def clrstEvents (p : Params) : List Event := stmtEvents p (.wr .status 0x16)

/-- `DO cmd` (R133): the command, then POLL. -/
def doEvents (p : Params) (i : Instr) (k : Nat) : List Event := stmtEvents p (.cmd i) ++ pollEvents p k

/-- `ENCMSG Bs, Bd` (R133). -/
def encmsgEvents (p : Params) (src dst : BitVec 2) (k l : Nat) : List Event :=
  doEvents p (.pad src dst) k ++ doEvents p (.cbcenc dst dst) l

/-- `ENCMSG.INJ Bs, Bd` (R133). -/
def encmsgInjEvents (p : Params) (src dst : BitVec 2) (k l : Nat) : List Event :=
  doEvents p (.pad src dst) k ++ doEvents p (.cbcencInj dst dst) l

/-- `DECMSG Bs, Bd` (R133). -/
def decmsgEvents (p : Params) (src dst : BitVec 2) (k l : Nat) : List Event :=
  doEvents p (.cbcdec src dst) k ++ doEvents p (.unpad dst dst) l

end Sys2Proof.Machine
end

