-- ==== Sys2Proof/Safety.lean ====
section
/-! DEFINITION. What claims say about the machine: the invariant of every reachable state, what a buffer holds, and
the parts of the state an instruction leaves alone. -/

namespace Sys2Proof.Machine

/-! ### The invariant -/

/-- A written byte lies in a buffer: in one of the three buffer windows at an offset below P_MAX_SIZE (R82). -/
abbrev InBuffers (p : Params) (a : Nat) : Prop := 0x10000 ≤ a ∧ a < 0x40000 ∧ a % 0x10000 < p.maxSize

/-- The memory is in its canonical form and lists buffer bytes only (R52, R57). -/
abbrev State.MemoryOk (s : State) : Prop := Memory.wf s.mem = true ∧ ∀ c ∈ s.mem, InBuffers s.cfg c.1

/-- PEND ≠ none ⇔ STATUS.BUSY = 1 (R50), and a pending command passes its issue check (R155). -/
abbrev State.PendOk (s : State) : Prop :=
  s.busy = s.pend.isSome ∧ ∀ i ∈ s.pend, i.WellFormed ∧ lenOk i s = true

/-- KS_VALID = 1 only while RK holds the key schedule of P_KEY (R39). -/
abbrev State.KeysOk (s : State) : Prop := s.ksValid = true → s.rk = keySchedule s.cfg.key

/-- ERRCODE is one of the codes 0 to 3 (R41) and 0 exactly while ERR = 0 (R42, R152); DONE = 0 while BUSY = 1
(R37, R153). -/
abbrev State.FlagsOk (s : State) : Prop :=
  s.errCode.toNat ≤ 3 ∧ (s.err = true ↔ s.errCode ≠ 0) ∧ (s.busy = true → s.done = false)

/-- What every state the machine reaches satisfies. -/
abbrev State.Inv (s : State) : Prop := s.cfg.wf ∧ s.MemoryOk ∧ s.PendOk ∧ s.KeysOk ∧ s.FlagsOk

/-! ### Buffers -/

/-- `BUF[b][0..LEN[b])` is written and is the byte sequence `data` (R15, R100). -/
def State.Holds (s : State) (b : Buf) (data : Bytes) : Prop :=
  data.length = (s.len b).toNat ∧ ∀ k (h : k < data.length), s.byteAt b k = some data[k]

/-- The SRC field of a command that has one (30_encoding.md R121, R129). -/
def sourceField : Instr → Option (BitVec 2)
  | .nop => none
  | .keyinit => none
  | .encb => none
  | .decb => none
  | .pad src _ => some src
  | .cbcenc src _ => some src
  | .cbcencInj src _ => some src
  | .cbcdec src _ => some src
  | .unpad src _ => some src

/-- Byte `o` of buffer `b` is in the source range `BUF[SRC][0..LEN[SRC])` of command `i` (R158). -/
def InSource (i : Instr) (s : State) (b : Buf) (o : Nat) : Prop :=
  (∃ src, sourceField i = some src ∧ bufOf src = some b) ∧ o < (s.len b).toNat

/-- Every byte a pending or coming command `i` would read from its source buffer is written (R304 step 1). -/
def SourceWritten (i : Instr) (s : State) : Prop := ∀ b o, InSource i s b o → s.byteAt b o ≠ none

/-- From `s` to `t`, `BUF[d][0..|out|)` became `out` and LEN[d] its length; every other byte of memory and every
other length register is as before (R100, R158). -/
def StoredOnly (s t : State) (d : Buf) (out : Bytes) : Prop :=
  (t.len d).toNat = out.length ∧ (∀ k (h : k < out.length), t.byteAt d k = some out[k]) ∧
    (∀ c, c ≠ d → t.len c = s.len c) ∧
    ∀ a, (a < bufAddr d 0 ∨ bufAddr d 0 + out.length ≤ a) → Memory.get t.mem a = Memory.get s.mem a

/-- `IV_DISTINCT` (R17) for the part of a run that leads from `s` to `t`: the IVs drawn in it, finitely many, differ from
one another. A premise that a claim which needs distinct drawn IVs must name: no rule gives it, and the model neither
proves nor refutes it of two draws (log entry 6). -/
def IvDistinct (s t : State) : Prop :=
  ∀ m n, s.draws ≤ m → m < n → n < t.draws → drawnIvBytes m ≠ drawnIvBytes n

/-! ### Frames -/

/-- What a completion does besides its command's own effects, and what no command changes: nothing pending, BUSY = 0,
DONE = 1 (R155); ERR and ERRCODE (R38), IV_LO and IV_HI (R44), the parameters, the coming events and the last answer
as before. -/
def Completed (s t : State) : Prop :=
  t.pend = none ∧ t.busy = false ∧ t.done = true ∧ t.err = s.err ∧ t.errCode = s.errCode ∧
    t.ivLo = s.ivLo ∧ t.ivHi = s.ivHi ∧ t.cfg = s.cfg ∧ t.inputs = s.inputs ∧ t.resp = s.resp

/-- ENSURE_KS has run: KS_VALID = 1, and RK as it was if it was valid, else the key schedule of P_KEY (R183). -/
def KeysEnsured (s t : State) : Prop :=
  t.ksValid = true ∧ t.rk = if s.ksValid then s.rk else keySchedule s.cfg.key

/-- KS_VALID and RK as before. -/
def KeysKept (s t : State) : Prop := t.ksValid = s.ksValid ∧ t.rk = s.rk

/-- BLK_X and BLK_Y as before. -/
def BlkKept (s t : State) : Prop := t.blkX = s.blkX ∧ t.blkY = s.blkY

/-- Every byte of memory, every length register and CV as before, and no IV drawn. -/
def BuffersKept (s t : State) : Prop :=
  (∀ a, Memory.get t.mem a = Memory.get s.mem a) ∧ (∀ b, t.len b = s.len b) ∧ t.cv = s.cv ∧ t.draws = s.draws

end Sys2Proof.Machine
end

