-- ==== Sys2Proof/Certificates/Slice0/Obligations.lean ====
section
/-! DEFINITION. The statements for the provers, each citing the rules of spec/ it formalises, and the few terms they are
written in. -/

namespace Sys2Proof.Claims

open Sys2Proof Sys2Proof.Machine

/-- OP as a number (30_encoding.md R121). -/
def opOf (v : Word) : Nat := v.toNat % 16

/-- SRC as a number (R121). -/
def srcOf (v : Word) : Nat := v.toNat / 16 % 4

/-- DST as a number (R121). -/
def dstOf (v : Word) : Nat := v.toNat / 64 % 4

/-- IVSEL as a number (R121). -/
def ivselOf (v : Word) : Nat := v.toNat / 256 % 2

/-- The reserved words (R127). -/
def ReservedWord (v : Word) : Prop :=
  8 ≤ opOf v ∨ v.toNat / 512 ≠ 0 ∨ (opOf v ≤ 3 ∧ v.toNat / 16 % 32 ≠ 0) ∨
    ((opOf v = 4 ∨ opOf v = 6 ∨ opOf v = 7) ∧ ivselOf v = 1)

/-- `LenOK(OP, n)` (R126), on plain numbers. -/
def LenBound (op n maxSize : Nat) : Prop :=
  (op = 4 → n ≤ maxSize) ∧ (op = 5 → n % 16 = 0 ∧ n + 16 ≤ maxSize) ∧
    (op = 6 → n % 16 = 0 ∧ 16 ≤ n ∧ n ≤ maxSize) ∧ (op = 7 → 1 ≤ n ∧ n ≤ maxSize)

/-- LEN[k] as a number, for k = 0, 1, 2. -/
def lenNumber (s : State) (k : Nat) : Nat :=
  (if k = 0 then s.len0 else if k = 1 then s.len1 else s.len2).toNat

/-- An aligned 8-byte write of `v` at block-relative address `a`. -/
def writeAt (s : State) (a : Nat) (v : Word) : Access := ⟨.write v, 8, s.cfg.base + a⟩

/-- An aligned 8-byte read at block-relative address `a`. -/
def readAt (s : State) (a : Nat) : Access := ⟨.read, 8, s.cfg.base + a⟩

/-- The conditions (a) to (f) of 60_exceptions.md R270 (with R271 for (f)), on the block-relative address. -/
def BusErrorCondition (s : State) (acc : Access) : Prop :=
  let a := acc.addr - s.cfg.base
  ¬ (acc.width = 1 ∨ (acc.width = 8 ∧ a % 8 = 0)) ∨
  (acc.width = 1 ∧ a < 0x10000) ∨
  ((0x50 ≤ a ∧ a < 0x100) ∨ (0x200 ≤ a ∧ a < 0x10000)) ∨
  (acc.kind ≠ .read ∧ (a < 8 ∨ (0x100 ≤ a ∧ a < 0x200))) ∨
  (0x10000 ≤ a ∧ s.cfg.maxSize < a % 0x10000 + acc.width) ∨
  (s.busy = true ∧ ¬ (acc.width = 8 ∧ (a = 0x10 ∨ (a = 0 ∧ acc.kind = .read))))

/-- The answer to a bus error: data 0 to a read, no data to a write (R270). -/
def errorAnswer (acc : Access) : Option BusResponse := some ⟨true, if acc.kind = .read then some 0 else none⟩

/-- This step is the completion of command `i` (R155). -/
def CompletesNow (s : State) (i : Instr) : Prop :=
  s.busy = true ∧ s.pend = some i ∧ (s.inputs = [] ∨ ∃ rest, s.inputs = .engine :: rest)

/-- This step is the host's write of command word `v` while BUSY = 0 (R151). -/
def CommandWrittenNow (s : State) (v : Word) : Prop :=
  s.busy = false ∧ ∃ rest, s.inputs = .host (writeAt s 0x8 v) :: rest

/-- This step is the host's write of `v` to STATUS (R42). -/
def StatusWrittenNow (s : State) (v : Word) : Prop := ∃ rest, s.inputs = .host (writeAt s 0x10 v) :: rest

/-- Among the coming events is a host write to STATUS with bit `n` set (R42). -/
def StatusClearComing (s : State) (n : Nat) : Prop :=
  ∃ v, Event.host (writeAt s 0x10 v) ∈ s.inputs ∧ v.getLsbD n = true

/-- This step is a host read of byte `o` of buffer `b`, alone (R85) or in its aligned word (R86), that is no bus error. -/
def BufferByteReadNow (s : State) (b : Buf) (o : Nat) : Prop :=
  s.busy = false ∧ ∃ rest,
    (o < s.cfg.maxSize ∧ s.inputs = .host ⟨.read, 1, s.cfg.base + bufAddr b o⟩ :: rest) ∨
    (o - o % 8 + 8 ≤ s.cfg.maxSize ∧ s.inputs = .host (readAt s (bufAddr b (o - o % 8))) :: rest)

/-- This step is a reset (R300). -/
def ResetNow (s : State) : Prop := ∃ rest, s.inputs = .reset :: rest

/-- Block `j` of a byte sequence. -/
def blockAt (s : Bytes) (j : Nat) : Bytes := (s.drop (16 * j)).take 16

/-- The commands that use the round keys (41_keyschedule.md R184). -/
def UsesKeys : Instr → Prop
  | .keyinit => True
  | .encb => True
  | .decb => True
  | .cbcenc _ _ => True
  | .cbcencInj _ _ => True
  | .cbcdec _ _ => True
  | .nop => False
  | .pad _ _ => False
  | .unpad _ _ => False

/-- The last byte of a sequence as a number: the claimed pad value (43_cbc_chainer.md R240). -/
def lastByte (s : Bytes) : Nat := (s.getLastD 0).toNat

/-- The four CBC commands of 43_cbc_chainer.md. -/
def BufferCommand : Instr → Prop
  | .pad _ _ => True
  | .cbcenc _ _ => True
  | .cbcencInj _ _ => True
  | .cbcdec _ _ => True
  | .unpad _ _ => True
  | .nop => False
  | .keyinit => False
  | .encb => False
  | .decb => False

/-- The same outcome with `f` applied to the next state. -/
def mapNext (f : State → State) : Host.Outcome State Fault Refusal → Host.Outcome State Fault Refusal
  | .next s => .next (f s)
  | .fault r => .fault r
  | .refused r => .refused r

end Sys2Proof.Claims

open Sys2Proof Sys2Proof.Machine Sys2Proof.Claims

/-! ### Encoding -/

/-- Decoding the word of a well-formed command gives the command back, for every command and every operand. -/
def Obligations.DecodeOfEncodeIsTheCommand : Prop :=
  ∀ i : Instr, i.WellFormed → decode (encode i) = .ok i

/-- R129: distinct words never decode to the same command; 4 words are accepted for OP 0 to 3, 9 for each of OP 4, 6
and 7, 18 for CBCENC, 49 in all, and every other word is rejected. -/
def Obligations.ExactlyFortyNineWordsDecode : Prop :=
  (∀ v w i, decode v = .ok i → decode w = .ok i → v = w) ∧
  ∃ l : List Word, l.Nodup ∧ l.length = 49 ∧
    (∀ v, (∃ i, decode v = .ok i) ↔ v ∈ l) ∧
    (l.filter fun v => opOf v ≤ 3).length = 4 ∧
    (l.filter fun v => opOf v = 4).length = 9 ∧
    (l.filter fun v => opOf v = 6).length = 9 ∧
    (l.filter fun v => opOf v = 7).length = 9 ∧
    (l.filter fun v => opOf v = 5).length = 18 ∧
    ∀ v ∈ l, 4 ≤ opOf v → srcOf v < 3 ∧ dstOf v < 3

/-- R127: the decoder rejects exactly the reserved words with ILLEGAL_CMD, and issuing one writes code 1 and nothing but
STATUS. -/
def Obligations.ReservedWordsAreIllegal : Prop :=
  ∀ v : Word, (decode v = .error .illegalCmd ↔ ReservedWord v) ∧
    (ReservedWord v → ∀ s : State, issue v s = { s with err := true, errCode := 1, done := true })

/-- R126: the issue check gives the code of the first failing check, and otherwise the command the word encodes. -/
def Obligations.IssueCheckGivesTheFirstFailingCheck : Prop :=
  ∀ (v : Word) (s : State),
    (ReservedWord v → check v s = .error .illegalCmd) ∧
    (¬ ReservedWord v → 4 ≤ opOf v → (srcOf v = 3 ∨ dstOf v = 3) → check v s = .error .badBuf) ∧
    (¬ ReservedWord v → 4 ≤ opOf v → srcOf v ≠ 3 → dstOf v ≠ 3 →
      ¬ LenBound (opOf v) (lenNumber s (srcOf v)) s.cfg.maxSize → check v s = .error .badLen) ∧
    (¬ ReservedWord v →
      (4 ≤ opOf v → srcOf v ≠ 3 ∧ dstOf v ≠ 3 ∧ LenBound (opOf v) (lenNumber s (srcOf v)) s.cfg.maxSize) →
      ∃ i : Instr, check v s = .ok i ∧ i.WellFormed ∧ encode i = v)

/-- The example words of R130 and the boundary words of the opcode map decode as the spec lists them. -/
def Obligations.ExampleWordsDecode : Prop :=
  decode 0x0 = .ok .nop ∧ decode 0x1 = .ok .keyinit ∧ decode 0x2 = .ok .encb ∧ decode 0x3 = .ok .decb ∧
  decode 0x44 = .ok (.pad 0 1) ∧ decode 0x95 = .ok (.cbcenc 1 2) ∧ decode 0x195 = .ok (.cbcencInj 1 2) ∧
  decode 0x26 = .ok (.cbcdec 2 0) ∧ decode 0x07 = .ok (.unpad 0 0) ∧
  decode 0x8 = .error .illegalCmd ∧ decode 0x34 = .error .badBuf ∧ decode 0x134 = .error .illegalCmd

/-! ### Issue -/

/-- R152: a rejected issue writes ERR, ERRCODE and DONE and nothing else of the machine. -/
def Obligations.RejectedIssueWritesOnlyErrorFlags : Prop :=
  ∀ (s : State) (v : Word) (e : CmdError) (rest : List Event),
    s.busy = false → s.inputs = .host (writeAt s 0x8 v) :: rest → check v s = .error e →
    step s = .next { s with
      inputs := rest, resp := some ⟨false, none⟩, err := true, done := true,
      errCode := match e with | .illegalCmd => 1 | .badBuf => 2 | .badLen => 3 }

/-- R153: an accepted issue records the command in PEND, sets BUSY and clears DONE, and changes nothing else. -/
def Obligations.AcceptedIssueRecordsTheCommand : Prop :=
  ∀ (s : State) (v : Word) (i : Instr) (rest : List Event),
    s.busy = false → s.inputs = .host (writeAt s 0x8 v) :: rest → check v s = .ok i →
    step s = .next { s with
      inputs := rest, resp := some ⟨false, none⟩, pend := some i, busy := true, done := false }

/-! ### Bus -/

/-- R271: while BUSY = 1 the host reads STATUS and CONFIG and writes STATUS; every other access, a CMD write among them,
is a bus error with no effect. -/
def Obligations.BusyBlockAnswersOnlyStatusAndConfig : Prop :=
  ∀ (s : State) (acc : Access) (rest : List Event),
    s.busy = true → s.inputs = .host acc :: rest →
    s.cfg.base ≤ acc.addr → acc.addr < s.cfg.base + 0x40000 →
    (acc = readAt s 0x10 → step s = .next { s with inputs := rest, resp := some ⟨false, some (statusWord s)⟩ }) ∧
    (acc = readAt s 0x0 → step s = .next { s with inputs := rest, resp := some ⟨false, some (configWord s.cfg)⟩ }) ∧
    (∀ v, acc = writeAt s 0x10 v →
      step s = .next (writeStatus v { s with inputs := rest, resp := some ⟨false, none⟩ })) ∧
    (acc ≠ readAt s 0x10 → acc ≠ readAt s 0x0 → (∀ v, acc ≠ writeAt s 0x10 v) →
      step s = .next { s with inputs := rest, resp := errorAnswer acc })

/-- R270: an access to the block is answered with a bus error, with read data 0 and no effect, exactly when one of the
conditions (a) to (f) holds. -/
def Obligations.BusErrorExactlyUnderItsConditions : Prop :=
  ∀ (s : State) (acc : Access) (rest : List Event),
    s.inputs = .host acc :: rest → s.cfg.base ≤ acc.addr → acc.addr < s.cfg.base + 0x40000 →
    (BusErrorCondition s acc → step s = .next { s with inputs := rest, resp := errorAnswer acc }) ∧
    (¬ BusErrorCondition s acc → ∀ t, step s = .next t → ∃ d, t.resp = some ⟨false, d⟩)

/-- R35: a host read of STATUS returns the flags at their bits and 0 in every reserved bit, in every state. -/
def Obligations.StatusReadsAsItsLayout : Prop :=
  ∀ (s : State) (rest : List Event), s.inputs = .host (readAt s 0x10) :: rest →
    ∃ w : Word, step s = .next { s with inputs := rest, resp := some ⟨false, some w⟩ } ∧
      w.toNat = s.busy.toNat + 2 * s.done.toNat + 4 * s.err.toNat + 8 * s.ksValid.toNat + 16 * s.padErr.toNat +
        256 * s.errCode.toNat

/-- R42: a host write to STATUS clears the flags its bits 1, 2 and 4 select and changes nothing else. -/
def Obligations.StatusWriteClearsSelectedFlags : Prop :=
  ∀ (s : State) (v : Word) (rest : List Event), s.inputs = .host (writeAt s 0x10 v) :: rest →
    ∃ t, step s = .next t ∧
      (v.getLsbD 1 = true → t.done = false) ∧ (v.getLsbD 1 = false → t.done = s.done) ∧
      (v.getLsbD 2 = true → t.err = false ∧ t.errCode = 0) ∧
      (v.getLsbD 2 = false → t.err = s.err ∧ t.errCode = s.errCode) ∧
      (v.getLsbD 4 = true → t.padErr = false) ∧ (v.getLsbD 4 = false → t.padErr = s.padErr) ∧
      t = { s with inputs := rest, resp := some ⟨false, none⟩, done := t.done, err := t.err, errCode := t.errCode,
                   padErr := t.padErr }

/-- R33: CONFIG reads as its constant fields and P_MAX_SIZE in every state, and a write to it is a bus error. -/
def Obligations.ConfigReadsItsConstantFields : Prop :=
  ∀ (s : State) (rest : List Event), s.cfg.wf →
    (s.inputs = .host (readAt s 0x0) :: rest →
      ∃ w : Word, step s = .next { s with inputs := rest, resp := some ⟨false, some w⟩ } ∧
        w.toNat % 2 ^ 8 = 32 ∧ w.toNat / 2 ^ 8 % 2 ^ 8 = 64 ∧ w.toNat / 2 ^ 16 % 2 ^ 8 = 16 ∧
        w.toNat / 2 ^ 24 % 2 ^ 8 = 1 ∧ w.toNat / 2 ^ 32 = s.cfg.maxSize) ∧
    (∀ v, s.inputs = .host (writeAt s 0x0 v) :: rest →
      step s = .next { s with inputs := rest, resp := some ⟨true, none⟩ })

/-- R43, R44, R45, R84: while BUSY = 0 a read/write register reads back the 64-bit value written to it, and the write
changes no other register and no memory. -/
def Obligations.WrittenRegisterReadsBack : Prop :=
  ∀ (s : State) (r : Reg) (o : Nat) (v : Word) (rest : List Event),
    s.busy = false →
    (r, o) ∈ ([(.blkX, 0x18), (.blkY, 0x20), (.ivLo, 0x28), (.ivHi, 0x30), (.len .b0, 0x38), (.len .b1, 0x40),
      (.len .b2, 0x48)] : List (Reg × Nat)) →
    s.inputs = .host (writeAt s o v) :: .host (readAt s o) :: rest →
    ∃ t u, step s = .next t ∧ step t = .next u ∧ t.resp = some ⟨false, none⟩ ∧ u.resp = some ⟨false, some v⟩ ∧
      u.inputs = rest ∧ (∀ r', r' ≠ r → readReg r' u = readReg r' s) ∧ u.rk = s.rk ∧ u.mem = s.mem ∧ u.cv = s.cv ∧
      u.pend = s.pend ∧ u.cfg = s.cfg ∧ u.draws = s.draws

/-- R43, R44, R45, R34, R84: in every state with BUSY = 0 a host read of BLK_X, BLK_Y, IV_LO, IV_HI, LEN0, LEN1 or LEN2
returns what that register holds, and a read of CMD returns 0; the read changes nothing. -/
def Obligations.RegisterReadsReturnTheRegister : Prop :=
  ∀ (s : State) (o : Nat) (v : Word) (rest : List Event),
    s.busy = false →
    (o, v) ∈ ([(0x8, 0), (0x18, s.blkX), (0x20, s.blkY), (0x28, s.ivLo), (0x30, s.ivHi), (0x38, s.len .b0),
      (0x40, s.len .b1), (0x48, s.len .b2)] : List (Nat × Word)) →
    s.inputs = .host (readAt s o) :: rest →
    step s = .next { s with inputs := rest, resp := some ⟨false, some v⟩ }

/-- R85: a 1-byte read of a written buffer byte returns it zero-extended, and a 1-byte write stores bits [7:0] of the bus
data and changes nothing else. -/
def Obligations.ByteAccessMovesOneByte : Prop :=
  ∀ (s : State) (b : Buf) (o : Nat) (rest : List Event),
    s.busy = false → s.cfg.wf → o < s.cfg.maxSize →
    (∀ x, s.byteAt b o = some x → s.inputs = .host ⟨.read, 1, s.cfg.base + bufAddr b o⟩ :: rest →
      step s = .next { s with inputs := rest, resp := some ⟨false, some (x.setWidth 64)⟩ }) ∧
    (∀ v, s.inputs = .host ⟨.write v, 1, s.cfg.base + bufAddr b o⟩ :: rest →
      ∃ t, step s = .next t ∧ t.byteAt b o = some (v.extractLsb' 0 8) ∧
        (∀ a, a ≠ bufAddr b o → Memory.get t.mem a = Memory.get s.mem a) ∧
        t = { s with inputs := rest, resp := some ⟨false, none⟩, mem := t.mem })

/-- R86: an aligned 8-byte access to a buffer moves eight bytes in little-endian order and changes nothing else. -/
def Obligations.WordAccessMovesEightBytesLittleEndian : Prop :=
  ∀ (s : State) (b : Buf) (o : Nat) (rest : List Event),
    s.busy = false → s.cfg.wf → o % 8 = 0 → o + 8 ≤ s.cfg.maxSize →
    (∀ x : Nat → Byte, (∀ k < 8, s.byteAt b (o + k) = some (x k)) → s.inputs = .host (readAt s (bufAddr b o)) :: rest →
      ∃ w : Word, step s = .next { s with inputs := rest, resp := some ⟨false, some w⟩ } ∧
        ∀ k < 8, w.extractLsb' (8 * k) 8 = x k) ∧
    (∀ v, s.inputs = .host (writeAt s (bufAddr b o) v) :: rest →
      ∃ t, step s = .next t ∧ (∀ k < 8, t.byteAt b (o + k) = some (v.extractLsb' (8 * k) 8)) ∧
        (∀ a, (a < bufAddr b o ∨ bufAddr b o + 8 ≤ a) → Memory.get t.mem a = Memory.get s.mem a) ∧
        t = { s with inputs := rest, resp := some ⟨false, none⟩, mem := t.mem })

/-- R90: where the aligned word of an offset reads as `w`, the byte at the offset reads as that word's bits
[8·(o mod 8)+7 : 8·(o mod 8)]. -/
def Obligations.ByteViewIsPartOfWordView : Prop :=
  ∀ (s t : State) (b : Buf) (o : Nat) (w : Word) (rest rest' : List Event),
    s.cfg.wf → o < s.cfg.maxSize →
    step { s with inputs := .host (readAt s (bufAddr b (o - o % 8))) :: rest } = .next t →
    t.resp = some ⟨false, some w⟩ →
    step { s with inputs := .host ⟨.read, 1, s.cfg.base + bufAddr b o⟩ :: rest' } =
      .next { s with inputs := rest', resp := some ⟨false, some ((w.extractLsb' (8 * (o % 8)) 8).setWidth 64)⟩ }

/-- R92: a host read has no side effect. -/
def Obligations.ReadsChangeNothing : Prop :=
  ∀ (s t : State) (acc : Access) (rest : List Event),
    s.inputs = .host acc :: rest → acc.kind = .read → step s = .next t →
    t = { s with inputs := rest, resp := t.resp }

/-- R46, R47: while BUSY = 0 the host reads RK[i] at 0x100 + 8·i; the read is the model's fault while KS_VALID = 0. -/
def Obligations.RoundKeyReadNeedsValidKeys : Prop :=
  ∀ (s : State) (i : Fin 32) (rest : List Event),
    s.busy = false → s.inputs = .host (readAt s (0x100 + 8 * i.val)) :: rest →
    (s.ksValid = false → step s = .fault (.unwrittenRk i)) ∧
    (s.ksValid = true → step s = .next { s with inputs := rest, resp := some ⟨false, some s.rk[i]⟩ })

/-- R57: a host read of an unwritten buffer byte, a host read of an aligned word that takes in one, and a command that
passes its check and has one in its source range, are the model's fault, and the fault names an unwritten byte of that
word or of the range BUF[SRC][0..LEN[SRC]) of the command's own SRC field. -/
def Obligations.UnwrittenBytesFault : Prop :=
  (∀ (s : State) (b : Buf) (o : Nat) (rest : List Event),
    s.busy = false → s.cfg.wf → o < s.cfg.maxSize → s.byteAt b o = none →
    s.inputs = .host ⟨.read, 1, s.cfg.base + bufAddr b o⟩ :: rest → step s = .fault (.unwrittenByte b o)) ∧
  (∀ (s : State) (b : Buf) (o k : Nat) (rest : List Event),
    s.busy = false → s.cfg.wf → o % 8 = 0 → o + 8 ≤ s.cfg.maxSize → k < 8 → s.byteAt b (o + k) = none →
    s.inputs = .host (readAt s (bufAddr b o)) :: rest →
    ∃ j < 8, s.byteAt b (o + j) = none ∧ step s = .fault (.unwrittenByte b (o + j))) ∧
  (∀ (s : State) (i : Instr) (src : BitVec 2) (b : Buf) (o : Nat),
    i.WellFormed → lenOk i s = true → sourceField i = some src → bufOf src = some b → o < (s.len b).toNat →
    s.byteAt b o = none →
    ∃ q < (s.len b).toNat, s.byteAt b q = none ∧ exec i s = .fault (.unwrittenByte b q))

/-- R81: an address outside the window has no effect on the block. That nothing answers is the model's choice (log
entry 10). -/
def Obligations.AddressOutsideTheWindowHasNoEffect : Prop :=
  ∀ (s : State) (acc : Access) (rest : List Event), s.inputs = .host acc :: rest →
    (acc.addr < s.cfg.base ∨ s.cfg.base + 0x40000 ≤ acc.addr) →
    step s = .next { s with inputs := rest, resp := none }

/-! ### Key schedule -/

/-- R181: the 32 round keys from the 16 key bytes, with the accumulator `a` named by its sequence of values. -/
def Obligations.KeyScheduleFollowsItsRecurrence : Prop :=
  ∀ key : Vector Byte 16, ∃ a : Nat → Word,
    (keySchedule key)[0].toNat = ((List.range 8).map fun k => (key.toList.getD k 0).toNat * 256 ^ k).sum ∧
    (a 0).toNat = ((List.range 8).map fun k => (key.toList.getD (8 + k) 0).toNat * 256 ^ k).sum ∧
    ∀ (i : Nat) (h : i < 31),
      a (i + 1) = ((a i).rotateRight 8 + (keySchedule key)[i]) ^^^ BitVec.ofNat 64 i ∧
      (keySchedule key)[i + 1] = (keySchedule key)[i].rotateLeft 3 ^^^ a (i + 1)

/-- R185, R183: KEYINIT answers a next state for every state: the keys ensured, nothing else but the completion. -/
def Obligations.KeyinitEnsuresTheKeys : Prop :=
  ∀ s : State, ∃ t, exec .keyinit s = .next t ∧ KeysEnsured s t ∧ Completed s t ∧ BuffersKept s t ∧ BlkKept s t ∧
    t.padErr = s.padErr

/-- R186: once KS_VALID = 1, only reset changes RK or KS_VALID; and what the host then reads from RK[i], in a state that
satisfies the invariant, is the key schedule of P_KEY. -/
def Obligations.ValidRoundKeysAreImmutable : Prop :=
  (∀ s t : State, s.ksValid = true → ¬ ResetNow s → step s = .next t → t.ksValid = true ∧ t.rk = s.rk) ∧
  (∀ (s t : State) (i : Fin 32) (rest : List Event), s.Inv → s.busy = false → s.ksValid = true →
    s.inputs = .host (readAt s (0x100 + 8 * i.val)) :: rest → step s = .next t →
    t.resp = some ⟨false, some (keySchedule s.cfg.key)[i]⟩)

/-- R184: the commands that use the round keys ensure them first and never depend on RK while KS_VALID = 0; NOP, PAD and
UNPAD leave KS_VALID and RK unchanged. R184 says 'four' and lists five; that the five are meant is the model's reading (log
entry 13). For CBCENC the last clause compares two runs that draw the same IV, the model's form of a draw (log entry 6). -/
def Obligations.OnlyCipherCommandsRunTheKeySchedule : Prop :=
  ∀ (i : Instr) (s t : State), i.WellFormed → lenOk i s = true → exec i s = .next t →
    (¬ UsesKeys i → KeysKept s t) ∧ (UsesKeys i → KeysEnsured s t) ∧
    (UsesKeys i → s.ksValid = false → ∀ rk, exec i { s with rk := rk } = .next t)

/-! ### NOP and the block cipher -/

/-- R160: NOP answers a next state for every state and changes nothing beyond the completion. -/
def Obligations.NopOnlyCompletes : Prop :=
  ∀ s : State, ∃ t, exec .nop s = .next t ∧ Completed s t ∧ KeysKept s t ∧ BlkKept s t ∧ BuffersKept s t ∧
    t.padErr = s.padErr

/-- R200 in ENCB (R205): for every state ENCB answers a next state whose BLK_X and BLK_Y are the 32 rounds of the old ones
under the ensured keys; nothing else changes but the keys and the completion. -/
def Obligations.EncbRunsTheEncryptionRounds : Prop :=
  ∀ s : State, ∃ (t : State) (x y : Nat → Word), exec .encb s = .next t ∧
    x 0 = s.blkX ∧ y 0 = s.blkY ∧
    (∀ (i : Nat) (h : i < 32), x (i + 1) = ((x i).rotateRight 8 + y i) ^^^ t.rk[i] ∧
      y (i + 1) = (y i).rotateLeft 3 ^^^ x (i + 1)) ∧
    t.blkX = x 32 ∧ t.blkY = y 32 ∧
    KeysEnsured s t ∧ Completed s t ∧ BuffersKept s t ∧ t.padErr = s.padErr

/-- R201 in DECB (R206): the rounds from i = 31 down to 0; nothing else changes but the keys and the completion. -/
def Obligations.DecbRunsTheDecryptionRounds : Prop :=
  ∀ s : State, ∃ (t : State) (x y : Nat → Word), exec .decb s = .next t ∧
    x 32 = s.blkX ∧ y 32 = s.blkY ∧
    (∀ (i : Nat) (h : i < 32), y i = (y (i + 1) ^^^ x (i + 1)).rotateRight 3 ∧
      x i = ((x (i + 1) ^^^ t.rk[i]) - y i).rotateLeft 8) ∧
    t.blkX = x 0 ∧ t.blkY = y 0 ∧
    KeysEnsured s t ∧ Completed s t ∧ BuffersKept s t ∧ t.padErr = s.padErr

/-- R202: each round, and Encrypt and Decrypt as wholes, are inverse to each other for every key and every block, so
Encrypt is a bijection. -/
def Obligations.EncryptAndDecryptAreInverse : Prop :=
  (∀ (b : Block) (k : Word), decRound (encRound b k) k = b ∧ encRound (decRound b k) k = b) ∧
  ∀ rk : Vector Word 32, (∀ b, decrypt rk (encrypt rk b) = b) ∧ (∀ b, encrypt rk (decrypt rk b) = b) ∧
    Function.Bijective (encrypt rk)

/-- R88: a 16-byte block and its word pair are each other's image, and x is the little-endian word of the first 8 bytes,
y of the last 8. -/
def Obligations.BlockAndUnblockAreInverse : Prop :=
  (∀ S : Bytes, S.length = 16 → unblock (blockOf S) = S ∧
    (blockOf S).x.toNat = ((List.range 8).map fun k => (S.getD k 0).toNat * 256 ^ k).sum ∧
    (blockOf S).y.toNat = ((List.range 8).map fun k => (S.getD (8 + k) 0).toNat * 256 ^ k).sum) ∧
  ∀ b : Block, blockOf (unblock b) = b

/-- R204: on 16-byte sequences DecBytes undoes EncBytes. -/
def Obligations.DecBytesUndoesEncBytes : Prop :=
  ∀ (rk : Vector Word 32) (S : Bytes), S.length = 16 → decBytes rk (encBytes rk S) = S

/-! ### The CBC chainer -/

/-- R222, R223, R224: Pad keeps the input bytes, fills with the pad value up to the next multiple of 16, and appends
nothing to a length that is one already. -/
def Obligations.PadFillsToTheNextMultipleOfSixteen : Prop :=
  ∀ S : Bytes, (padBytes S).length % 16 = 0 ∧ S.length ≤ (padBytes S).length ∧
    (padBytes S).length < S.length + 16 ∧ (padBytes S).take S.length = S ∧
    (∀ (k : Nat) (h : k < (padBytes S).length), S.length ≤ k →
      (padBytes S)[k].toNat = (padBytes S).length - S.length) ∧
    (padBytes S).length = padLen S.length ∧ padVal S.length = padLen S.length - S.length ∧
    (padVal S.length = 0 ↔ S.length % 16 = 0) ∧ (S.length % 16 ≠ 0 → padVal S.length = 16 - S.length % 16) ∧
    (S.length % 16 = 0 → padBytes S = S)

/-- R225: PAD completes for every source that its check accepts and that is written, and stores the padded message. -/
def Obligations.PadStoresThePaddedMessage : Prop :=
  ∀ (s : State) (src dst : BitVec 2) (b d : Buf) (S : Bytes),
    s.cfg.wf → bufOf src = some b → bufOf dst = some d → s.Holds b S → S.length ≤ s.cfg.maxSize →
    ∃ t, exec (.pad src dst) s = .next t ∧ StoredOnly s t d (padBytes S) ∧
      KeysKept s t ∧ BlkKept s t ∧ Completed s t ∧ t.cv = s.cv ∧ t.draws = s.draws ∧ t.padErr = s.padErr

/-- R231 with IVSEL = 0: CBCENC completes for every source its check accepts and that is written, draws one IV, and stores
the IV and the ciphertext. The drawn IV is a free value: nothing is known of it (log entry 6). -/
def Obligations.CbcencStoresDrawnIvAndCiphertext : Prop :=
  ∀ (s : State) (src dst : BitVec 2) (b d : Buf) (S : Bytes),
    s.cfg.wf → bufOf src = some b → bufOf dst = some d → s.Holds b S →
    S.length % 16 = 0 → S.length + 16 ≤ s.cfg.maxSize →
    ∃ t, exec (.cbcenc src dst) s = .next t ∧
      StoredOnly s t d (cbcEnc t.rk S (drawnIvBytes s.draws)).1 ∧
      t.cv = blockOf (cbcEnc t.rk S (drawnIvBytes s.draws)).2 ∧ t.draws = s.draws + 1 ∧
      KeysEnsured s t ∧ BlkKept s t ∧ Completed s t ∧ t.padErr = s.padErr

/-- R231 with IVSEL = 1: CBCENC.INJ does the same with the IV in IV_LO and IV_HI and draws none. -/
def Obligations.CbcencInjStoresInjectedIvAndCiphertext : Prop :=
  ∀ (s : State) (src dst : BitVec 2) (b d : Buf) (S : Bytes),
    s.cfg.wf → bufOf src = some b → bufOf dst = some d → s.Holds b S →
    S.length % 16 = 0 → S.length + 16 ≤ s.cfg.maxSize →
    ∃ t, exec (.cbcencInj src dst) s = .next t ∧
      StoredOnly s t d (cbcEnc t.rk S (bytes64 s.ivLo ++ bytes64 s.ivHi)).1 ∧
      t.cv = blockOf (cbcEnc t.rk S (bytes64 s.ivLo ++ bytes64 s.ivHi)).2 ∧ t.draws = s.draws ∧
      KeysEnsured s t ∧ BlkKept s t ∧ Completed s t ∧ t.padErr = s.padErr

/-- R236: CBCDEC completes for every source its check accepts and that is written, whatever its bytes (R238), and stores
the n - 16 bytes of plaintext. -/
def Obligations.CbcdecStoresThePlaintext : Prop :=
  ∀ (s : State) (src dst : BitVec 2) (b d : Buf) (S : Bytes),
    s.cfg.wf → bufOf src = some b → bufOf dst = some d → s.Holds b S →
    S.length % 16 = 0 → 16 ≤ S.length → S.length ≤ s.cfg.maxSize →
    ∃ t, exec (.cbcdec src dst) s = .next t ∧
      StoredOnly s t d (cbcDec t.rk S).1 ∧ (cbcDec t.rk S).1.length = S.length - 16 ∧
      t.cv = blockOf (cbcDec t.rk S).2 ∧ t.draws = s.draws ∧
      KeysEnsured s t ∧ BlkKept s t ∧ Completed s t ∧ t.padErr = s.padErr

/-- R240, R241: UNPAD completes for every source its check accepts and that is written; a last byte above 16 or above the
length leaves the length unchanged and sets PADERR, any other strips that many bytes and keeps PADERR. -/
def Obligations.UnpadStripsTheClaimedPadding : Prop :=
  ∀ (s : State) (src dst : BitVec 2) (b d : Buf) (S : Bytes),
    s.cfg.wf → bufOf src = some b → bufOf dst = some d → s.Holds b S → 1 ≤ S.length → S.length ≤ s.cfg.maxSize →
    ∃ t, exec (.unpad src dst) s = .next t ∧
      ((16 < lastByte S ∨ S.length < lastByte S) → StoredOnly s t d S ∧ t.padErr = true) ∧
      (lastByte S ≤ 16 → lastByte S ≤ S.length →
        StoredOnly s t d (S.take (S.length - lastByte S)) ∧ t.padErr = s.padErr) ∧
      KeysKept s t ∧ BlkKept s t ∧ Completed s t ∧ t.cv = s.cv ∧ t.draws = s.draws

/-- R233: the output of CbcEnc block by block, its length, its last chaining value, and that output block j depends on the
IV and input blocks 0 to j only. -/
def Obligations.CbcEncChainsEveryBlock : Prop :=
  (∀ (rk : Vector Word 32) (P iv : Bytes) (n : Nat), P.length = 16 * n → iv.length = 16 →
    (cbcEnc rk P iv).1.length = 16 * (n + 1) ∧ blockAt (cbcEnc rk P iv).1 0 = iv ∧
    (∀ j < n, blockAt (cbcEnc rk P iv).1 (j + 1) =
      encBytes rk (xorBytes (blockAt P j) (blockAt (cbcEnc rk P iv).1 j))) ∧
    (cbcEnc rk P iv).2 = blockAt (cbcEnc rk P iv).1 n) ∧
  ∀ (rk : Vector Word 32) (P Q iv : Bytes) (m n j : Nat), P.length = 16 * m → Q.length = 16 * n → iv.length = 16 →
    j ≤ m → j ≤ n → P.take (16 * j) = Q.take (16 * j) →
    (cbcEnc rk P iv).1.take (16 * (j + 1)) = (cbcEnc rk Q iv).1.take (16 * (j + 1))

/-- R235: the output of CbcDec block by block, its length and its last chaining value, the original ciphertext block. -/
def Obligations.CbcDecUnchainsEveryBlock : Prop :=
  ∀ (rk : Vector Word 32) (C : Bytes) (n : Nat), C.length = 16 * (n + 1) →
    (cbcDec rk C).1.length = 16 * n ∧
    (∀ j < n, blockAt (cbcDec rk C).1 j = xorBytes (decBytes rk (blockAt C (j + 1))) (blockAt C j)) ∧
    (cbcDec rk C).2 = blockAt C n

/-- R239: decrypting what CbcEnc made gives the plaintext back, for every key schedule, IV and number of blocks. -/
def Obligations.CbcDecUndoesCbcEnc : Prop :=
  ∀ (rk : Vector Word 32) (P iv : Bytes), P.length % 16 = 0 → iv.length = 16 → (cbcDec rk (cbcEnc rk P iv).1).1 = P

/-- R238: a ciphertext with one byte changed still decrypts to a plaintext of the same length, and to another one. -/
def Obligations.TamperedCiphertextDecryptsDifferently : Prop :=
  ∀ (rk : Vector Word 32) (C : Bytes) (n k : Nat) (x : Byte), C.length = 16 * (n + 2) → (h : k < C.length) → x ≠ C[k] →
    (cbcDec rk (C.set k x)).1.length = (cbcDec rk C).1.length ∧ (cbcDec rk (C.set k x)).1 ≠ (cbcDec rk C).1

/-- R242: the four commands PAD, CBCENC (drawn or injected IV), CBCDEC, UNPAD run one after the other on any buffers all
complete, and leave the message as it was, but for the padding boundary of a length that is a multiple of 16. -/
def Obligations.MessageRoundTrip : Prop :=
  ∀ (s : State) (b₀ b₁ b₂ b₃ b₄ : BitVec 2) (src dst : Buf) (p : Bytes) (inj : Bool),
    s.cfg.wf → SelectsBuffer b₁ → SelectsBuffer b₂ → SelectsBuffer b₃ → bufOf b₀ = some src → bufOf b₄ = some dst →
    s.Holds src p → 1 ≤ p.length → padLen p.length + 16 ≤ s.cfg.maxSize →
    ∃ t₁ t₂ t₃ t₄, exec (.pad b₀ b₁) s = .next t₁ ∧
      exec (if inj = true then .cbcencInj b₁ b₂ else .cbcenc b₁ b₂) t₁ = .next t₂ ∧
      exec (.cbcdec b₂ b₃) t₂ = .next t₃ ∧ exec (.unpad b₃ b₄) t₃ = .next t₄ ∧
      (p.length % 16 ≠ 0 → t₄.Holds dst p ∧ t₄.padErr = s.padErr) ∧
      (p.length % 16 = 0 → lastByte p = 0 → t₄.Holds dst p ∧ t₄.padErr = s.padErr) ∧
      (p.length % 16 = 0 → 16 < lastByte p → t₄.Holds dst p ∧ t₄.padErr = true) ∧
      (p.length % 16 = 0 → 1 ≤ lastByte p → lastByte p ≤ 16 →
        t₄.Holds dst (p.take (p.length - lastByte p)) ∧ t₄.padErr = s.padErr)

/-- R220: no buffer command reads or writes BLK_X or BLK_Y, and none but CBCENC.INJ reads or writes IV_LO or IV_HI: changing
them before the command is changing them after it. For CBCENC the two runs draw identical IVs (R164); that equal draw counts
draw them is the model's form of a draw (log entry 6). -/
def Obligations.BufferCommandsIgnoreTheBlockRegisters : Prop :=
  ∀ (i : Instr) (s : State), BufferCommand i →
    (∀ x y, exec i { s with blkX := x, blkY := y } = mapNext (fun t => { t with blkX := x, blkY := y }) (exec i s)) ∧
    ((∀ src dst, i ≠ .cbcencInj src dst) → ∀ lo hi,
      exec i { s with ivLo := lo, ivHi := hi } = mapNext (fun t => { t with ivLo := lo, ivHi := hi }) (exec i s))

/-! ### Reset -/

/-- R55: what reset leaves, for every piece of state the spec gives a reset value: STATUS 0, the data registers 0, nothing
pending, every buffer byte unwritten. -/
def Obligations.ResetLeavesTheResetValues : Prop :=
  statusWord State.reset = 0 ∧ State.reset.blkX = 0 ∧ State.reset.blkY = 0 ∧ State.reset.ivLo = 0 ∧
  State.reset.ivHi = 0 ∧ (∀ b, State.reset.len b = 0) ∧ State.reset.pend = none ∧
  ∀ b o, State.reset.byteAt b o = none

/-- R301, R302: reset in any state, a command pending or not, gives STATUS 0, the data registers 0, nothing pending, every
written mark cleared, and leaves the build parameters; no part of a pending command happens. That the count of drawn IVs
and the coming events stay is the model's choice (log entries 6 and 7). -/
def Obligations.ResetAbandonsThePendingCommand : Prop :=
  ∀ (s : State) (rest : List Event), s.inputs = .reset :: rest →
    ∃ t, step s = .next t ∧ statusWord t = 0 ∧ t.pend = none ∧ t.blkX = 0 ∧ t.blkY = 0 ∧ t.ivLo = 0 ∧ t.ivHi = 0 ∧
      (∀ b, t.len b = 0) ∧ (∀ b o, t.byteAt b o = none) ∧ t.cfg = s.cfg ∧ t.draws = s.draws ∧ t.inputs = rest

/-! ### The whole machine -/

/-- The invariant holds right after reset, with any legal build parameters. -/
def Obligations.InvariantHoldsAfterReset : Prop :=
  State.reset.Inv ∧ ∀ p : Params, p.wf → (State.resetWith p).Inv

/-- Every step keeps the invariant, whatever the host, the engine and the reset input do: the memory stays canonical and
inside the buffers, PEND ≠ none ⇔ BUSY = 1 with the pending command still passing its check, valid round keys stay the key
schedule of P_KEY, and the error flags stay consistent. -/
def Obligations.EveryStepKeepsTheInvariant : Prop :=
  ∀ s t : State, s.Inv → step s = .next t → t.Inv

/-- R159: no step refuses; a step faults only on the host's read of RK[i], at 0x100 + 8·i, while KS_VALID = 0, or on a read
of a buffer byte not written since reset: the host's read of that byte or of its aligned word, or a completion whose source
range holds it. -/
def Obligations.StepsFaultOnlyOnUnwrittenReads : Prop :=
  ∀ s : State, (∀ r, step s ≠ .refused r) ∧
    ∀ f, step s = .fault f →
      (∃ (i : Fin 32) (rest : List Event), f = .unwrittenRk i ∧ s.busy = false ∧ s.ksValid = false ∧
        s.inputs = .host (readAt s (0x100 + 8 * i.val)) :: rest) ∨
      (∃ b o, f = .unwrittenByte b o ∧ s.byteAt b o = none ∧
        (BufferByteReadNow s b o ∨ ∃ i, CompletesNow s i ∧ InSource i s b o))

/-- R155, R38: in a state that satisfies the invariant a pending command whose source is written completes, and its
completion changes neither ERR nor ERRCODE; the only stop is an unwritten byte of the command's source range. -/
def Obligations.AcceptedCommandsNeverFail : Prop :=
  ∀ (s : State) (i : Instr), s.Inv → s.pend = some i →
    (SourceWritten i s → ∃ t, exec i s = .next t ∧ Completed s t) ∧
    (∀ t, exec i s = .next t → Completed s t) ∧
    (∀ f, exec i s = .fault f → ∃ b o, f = .unwrittenByte b o ∧ InSource i s b o ∧ s.byteAt b o = none)

/-- R156: any number of host accesses between issue and completion leave the completion's result as it would have been, and
after them the command completes. A STATUS write among them may clear ERR, ERRCODE or PADERR; a PADERR the command sets
(it is set when the command starts from PADERR = 0) is set after any such write, and otherwise PADERR is what those writes
left of it; a command that passes its check leaves ERR and ERRCODE as the writes left them. That the engine moves at the
latest when no event is left is the model's schedule (log entry 7). -/
def Obligations.HostStepsDoNotDisturbThePendingCommand : Prop :=
  ∀ (s u : State) (i : Instr), s.busy = true → s.pend = some i → (∀ e ∈ s.inputs, ∃ acc, e = Event.host acc) →
    exec i s = .next u →
    ∃ t v : State, Sys2Proof.core.run (s.inputs.length + 1) s = .next t ∧ exec i { s with padErr := false } = .next v ∧
      t.busy = false ∧ t.done = true ∧ t.pend = none ∧ t.inputs = [] ∧
      t.mem = u.mem ∧ (∀ b, t.len b = u.len b) ∧ t.blkX = u.blkX ∧ t.blkY = u.blkY ∧ t.ivLo = u.ivLo ∧ t.ivHi = u.ivHi ∧
      t.rk = u.rk ∧ t.ksValid = u.ksValid ∧ t.cv = u.cv ∧ t.draws = u.draws ∧ t.cfg = u.cfg ∧
      (v.padErr = true → t.padErr = true) ∧
      (v.padErr = false → (t.padErr = true ↔ s.padErr = true ∧ ¬ StatusClearComing s 4)) ∧
      (i.WellFormed → lenOk i s = true →
        (StatusClearComing s 2 → t.err = false ∧ t.errCode = 0) ∧
        (¬ StatusClearComing s 2 → t.err = s.err ∧ t.errCode = s.errCode))

/-- R36: BUSY is set only by an accepted CMD write and cleared only by a completion or reset. -/
def Obligations.BusyChangesOnlyByIssueCompletionReset : Prop :=
  ∀ s t : State, step s = .next t →
    (s.busy = false → t.busy = true → ∃ v i, CommandWrittenNow s v ∧ check v s = .ok i) ∧
    (s.busy = true → t.busy = false → (∃ i, CompletesNow s i) ∨ ResetNow s)

/-- R37: DONE is set only by a completion or a rejected CMD write, and cleared only by an accepted CMD write, a STATUS write
with bit 1 set, or reset. -/
def Obligations.DoneChangesOnlyAsItsRuleSays : Prop :=
  ∀ s t : State, step s = .next t →
    (s.done = false → t.done = true →
      (∃ i, CompletesNow s i) ∨ ∃ v e, CommandWrittenNow s v ∧ check v s = .error e) ∧
    (s.done = true → t.done = false →
      (∃ v i, CommandWrittenNow s v ∧ check v s = .ok i) ∨ (∃ v, StatusWrittenNow s v ∧ v.getLsbD 1 = true) ∨ ResetNow s)

/-- R38: in states whose pending command passes its check, ERR is set only by a rejected CMD write and cleared only by a
STATUS write with bit 2 set or reset. -/
def Obligations.ErrChangesOnlyAsItsRuleSays : Prop :=
  ∀ s t : State, s.PendOk → step s = .next t →
    (s.err = false → t.err = true → ∃ v e, CommandWrittenNow s v ∧ check v s = .error e) ∧
    (s.err = true → t.err = false → (∃ v, StatusWrittenNow s v ∧ v.getLsbD 2 = true) ∨ ResetNow s)

/-- R40: PADERR is set only by the completion of an UNPAD whose claimed pad value is invalid, and cleared only by a STATUS
write with bit 4 set or reset. -/
def Obligations.PadErrChangesOnlyAsItsRuleSays : Prop :=
  ∀ s t : State, step s = .next t →
    (s.padErr = false → t.padErr = true →
      ∃ src dst b S, CompletesNow s (.unpad src dst) ∧ bufOf src = some b ∧ s.Holds b S ∧
        (16 < lastByte S ∨ S.length < lastByte S)) ∧
    (s.padErr = true → t.padErr = false → (∃ v, StatusWrittenNow s v ∧ v.getLsbD 4 = true) ∨ ResetNow s)

/-! ### A step runs the command -/

/-- R155: the engine's step performs the pending command, at its turn or when no event is left, and does nothing while
BUSY = 0. That it moves when no event is left is the model's schedule (log entry 7), its idle turn log entry 8. -/
def Obligations.EngineStepRunsThePendingCommand : Prop :=
  ∀ (s : State) (rest : List Event),
    (∀ i, s.busy = true → s.pend = some i → s.inputs = .engine :: rest → step s = exec i { s with inputs := rest }) ∧
    (∀ i, s.busy = true → s.pend = some i → s.inputs = [] → step s = exec i s) ∧
    (s.busy = false → s.inputs = .engine :: rest → step s = .next { s with inputs := rest })

/-- R285, R319: at the end of a run the block, BUSY = 0, holds all its state. That the run is over when no event is left is
the model's list of events (log entry 7), and the step that then stays is the model's, not an event of the chip (log
entry 8). -/
def Obligations.IdleBlockHoldsItsState : Prop :=
  ∀ s : State, s.busy = false → s.inputs = [] → step s = .next s

/-- R150, R151, R155: the host's write of a well-formed command's word, then the engine's turn, run that command: the CMD
write decodes the word into PEND and the next step is exec of it. -/
def Obligations.CommandWriteThenEngineRunsTheCommand : Prop :=
  ∀ (s : State) (i : Instr) (rest : List Event), i.WellFormed → lenOk i s = true → s.busy = false →
    s.inputs = .host (writeAt s 0x8 (encode i)) :: .engine :: rest →
    ∃ t, step s = .next t ∧
      step t = exec i { s with
        inputs := rest, resp := some ⟨false, none⟩, pend := some i, busy := true, done := false }

/-- A word put where the engine takes its next command runs as the command it decodes to. The model's way to place a
command (log entry 11). -/
def Obligations.PlacedWordRunsAsItsCommand : Prop :=
  ∀ (s : State) (w : Nat) (i : Instr), decodeTableWord 64 w = some i →
    step (s.withFetchWord 64 w) = exec i { s with pend := some i, busy := true, done := false }

/-- R133 (DO and POLL), R153, R155: a command accepted while BUSY = 0, then POLL with any number of BUSY reads: the last read
shows STATUS after the command's completion, with BUSY = 0, and the command has had the effect of exec. That POLL is written
out as `k` reads, the engine's turn and a last read is the model's (log entry 19), on its list of events (log entry 7). -/
def Obligations.DoCommandPollsToCompletion : Prop :=
  ∀ (s u : State) (i : Instr) (k : Nat), i.WellFormed → lenOk i s = true → s.busy = false →
    s.inputs = doEvents s.cfg i k → exec i { s with pend := some i, busy := true, done := false } = .next u →
    ∃ t : State, Sys2Proof.core.run (k + 3) s = .next t ∧ t.resp = some ⟨false, some (statusWord t)⟩ ∧ t.inputs = [] ∧
      t = { u with inputs := [], resp := t.resp } ∧ t.busy = false
end

