-- ==== Sys2Proof/Laws/Bytes.lean ====
section
/-! SUPPORT. The lengths of the byte sequences the operations give, and the selectors. -/

namespace Sys2Proof.Machine

@[simp] theorem bytes64_length (v : Word) : (bytes64 v).length = 8 := rfl

@[simp] theorem unblock_length (b : Block) : (unblock b).length = 16 := rfl

@[simp] theorem encBytes_length (rk : Vector Word 32) (s : Bytes) : (encBytes rk s).length = 16 := rfl

@[simp] theorem decBytes_length (rk : Vector Word 32) (s : Bytes) : (decBytes rk s).length = 16 := rfl

@[simp] theorem injectedIv_length (s : State) : (injectedIv s).length = 16 := rfl

@[simp] theorem drawnIvBytes_length (n : Nat) : (drawnIvBytes n).length = 16 := rfl

@[simp] theorem xorBytes_length (s t : Bytes) : (xorBytes s t).length = min s.length t.length := by
  simp [xorBytes]

/-- A field selects a buffer exactly when it is not 3. -/
theorem bufOf_isSome (sel : BitVec 2) : (bufOf sel).isSome = true ↔ SelectsBuffer sel := by
  revert sel; decide

/-- A field that selects a buffer selects exactly one. -/
theorem bufOf_of_selects (sel : BitVec 2) (h : SelectsBuffer sel) : ∃ b, bufOf sel = some b :=
  Option.isSome_iff_exists.1 ((bufOf_isSome sel).2 h)

/-- Value 3 selects no buffer. -/
theorem bufOf_three : bufOf 3 = none := rfl

end Sys2Proof.Machine
end

