-- ==== Sys2Proof/Laws/State.lean ====
section
/-! SUPPORT. One lemma for each field and each update of the state, so that no later proof unfolds a record update. -/

namespace Sys2Proof.Machine

/-! ### finish -/

@[simp] theorem finish_busy (s : State) : (finish s).busy = false := rfl
@[simp] theorem finish_done (s : State) : (finish s).done = true := rfl
@[simp] theorem finish_err (s : State) : (finish s).err = s.err := rfl
@[simp] theorem finish_ksValid (s : State) : (finish s).ksValid = s.ksValid := rfl
@[simp] theorem finish_padErr (s : State) : (finish s).padErr = s.padErr := rfl
@[simp] theorem finish_errCode (s : State) : (finish s).errCode = s.errCode := rfl
@[simp] theorem finish_blkX (s : State) : (finish s).blkX = s.blkX := rfl
@[simp] theorem finish_blkY (s : State) : (finish s).blkY = s.blkY := rfl
@[simp] theorem finish_ivLo (s : State) : (finish s).ivLo = s.ivLo := rfl
@[simp] theorem finish_ivHi (s : State) : (finish s).ivHi = s.ivHi := rfl
@[simp] theorem finish_len0 (s : State) : (finish s).len0 = s.len0 := rfl
@[simp] theorem finish_len1 (s : State) : (finish s).len1 = s.len1 := rfl
@[simp] theorem finish_len2 (s : State) : (finish s).len2 = s.len2 := rfl
@[simp] theorem finish_rk (s : State) : (finish s).rk = s.rk := rfl
@[simp] theorem finish_cv (s : State) : (finish s).cv = s.cv := rfl
@[simp] theorem finish_pend (s : State) : (finish s).pend = none := rfl
@[simp] theorem finish_mem (s : State) : (finish s).mem = s.mem := rfl
@[simp] theorem finish_cfg (s : State) : (finish s).cfg = s.cfg := rfl
@[simp] theorem finish_draws (s : State) : (finish s).draws = s.draws := rfl
@[simp] theorem finish_inputs (s : State) : (finish s).inputs = s.inputs := rfl
@[simp] theorem finish_resp (s : State) : (finish s).resp = s.resp := rfl

/-! ### rejectIssue -/

@[simp] theorem rejectIssue_busy (e : CmdError) (s : State) : (rejectIssue e s).busy = s.busy := rfl
@[simp] theorem rejectIssue_done (e : CmdError) (s : State) : (rejectIssue e s).done = true := rfl
@[simp] theorem rejectIssue_err (e : CmdError) (s : State) : (rejectIssue e s).err = true := rfl
@[simp] theorem rejectIssue_ksValid (e : CmdError) (s : State) : (rejectIssue e s).ksValid = s.ksValid := rfl
@[simp] theorem rejectIssue_padErr (e : CmdError) (s : State) : (rejectIssue e s).padErr = s.padErr := rfl
@[simp] theorem rejectIssue_errCode (e : CmdError) (s : State) : (rejectIssue e s).errCode = errorCode e := rfl
@[simp] theorem rejectIssue_blkX (e : CmdError) (s : State) : (rejectIssue e s).blkX = s.blkX := rfl
@[simp] theorem rejectIssue_blkY (e : CmdError) (s : State) : (rejectIssue e s).blkY = s.blkY := rfl
@[simp] theorem rejectIssue_ivLo (e : CmdError) (s : State) : (rejectIssue e s).ivLo = s.ivLo := rfl
@[simp] theorem rejectIssue_ivHi (e : CmdError) (s : State) : (rejectIssue e s).ivHi = s.ivHi := rfl
@[simp] theorem rejectIssue_len0 (e : CmdError) (s : State) : (rejectIssue e s).len0 = s.len0 := rfl
@[simp] theorem rejectIssue_len1 (e : CmdError) (s : State) : (rejectIssue e s).len1 = s.len1 := rfl
@[simp] theorem rejectIssue_len2 (e : CmdError) (s : State) : (rejectIssue e s).len2 = s.len2 := rfl
@[simp] theorem rejectIssue_rk (e : CmdError) (s : State) : (rejectIssue e s).rk = s.rk := rfl
@[simp] theorem rejectIssue_cv (e : CmdError) (s : State) : (rejectIssue e s).cv = s.cv := rfl
@[simp] theorem rejectIssue_pend (e : CmdError) (s : State) : (rejectIssue e s).pend = s.pend := rfl
@[simp] theorem rejectIssue_mem (e : CmdError) (s : State) : (rejectIssue e s).mem = s.mem := rfl
@[simp] theorem rejectIssue_cfg (e : CmdError) (s : State) : (rejectIssue e s).cfg = s.cfg := rfl
@[simp] theorem rejectIssue_draws (e : CmdError) (s : State) : (rejectIssue e s).draws = s.draws := rfl
@[simp] theorem rejectIssue_inputs (e : CmdError) (s : State) : (rejectIssue e s).inputs = s.inputs := rfl
@[simp] theorem rejectIssue_resp (e : CmdError) (s : State) : (rejectIssue e s).resp = s.resp := rfl

/-! ### acceptIssue -/

@[simp] theorem acceptIssue_busy (i : Instr) (s : State) : (acceptIssue i s).busy = true := rfl
@[simp] theorem acceptIssue_done (i : Instr) (s : State) : (acceptIssue i s).done = false := rfl
@[simp] theorem acceptIssue_err (i : Instr) (s : State) : (acceptIssue i s).err = s.err := rfl
@[simp] theorem acceptIssue_ksValid (i : Instr) (s : State) : (acceptIssue i s).ksValid = s.ksValid := rfl
@[simp] theorem acceptIssue_padErr (i : Instr) (s : State) : (acceptIssue i s).padErr = s.padErr := rfl
@[simp] theorem acceptIssue_errCode (i : Instr) (s : State) : (acceptIssue i s).errCode = s.errCode := rfl
@[simp] theorem acceptIssue_blkX (i : Instr) (s : State) : (acceptIssue i s).blkX = s.blkX := rfl
@[simp] theorem acceptIssue_blkY (i : Instr) (s : State) : (acceptIssue i s).blkY = s.blkY := rfl
@[simp] theorem acceptIssue_ivLo (i : Instr) (s : State) : (acceptIssue i s).ivLo = s.ivLo := rfl
@[simp] theorem acceptIssue_ivHi (i : Instr) (s : State) : (acceptIssue i s).ivHi = s.ivHi := rfl
@[simp] theorem acceptIssue_len0 (i : Instr) (s : State) : (acceptIssue i s).len0 = s.len0 := rfl
@[simp] theorem acceptIssue_len1 (i : Instr) (s : State) : (acceptIssue i s).len1 = s.len1 := rfl
@[simp] theorem acceptIssue_len2 (i : Instr) (s : State) : (acceptIssue i s).len2 = s.len2 := rfl
@[simp] theorem acceptIssue_rk (i : Instr) (s : State) : (acceptIssue i s).rk = s.rk := rfl
@[simp] theorem acceptIssue_cv (i : Instr) (s : State) : (acceptIssue i s).cv = s.cv := rfl
@[simp] theorem acceptIssue_pend (i : Instr) (s : State) : (acceptIssue i s).pend = some i := rfl
@[simp] theorem acceptIssue_mem (i : Instr) (s : State) : (acceptIssue i s).mem = s.mem := rfl
@[simp] theorem acceptIssue_cfg (i : Instr) (s : State) : (acceptIssue i s).cfg = s.cfg := rfl
@[simp] theorem acceptIssue_draws (i : Instr) (s : State) : (acceptIssue i s).draws = s.draws := rfl
@[simp] theorem acceptIssue_inputs (i : Instr) (s : State) : (acceptIssue i s).inputs = s.inputs := rfl
@[simp] theorem acceptIssue_resp (i : Instr) (s : State) : (acceptIssue i s).resp = s.resp := rfl

/-! ### setBlk -/

@[simp] theorem setBlk_busy (b : Block) (s : State) : (setBlk b s).busy = s.busy := rfl
@[simp] theorem setBlk_done (b : Block) (s : State) : (setBlk b s).done = s.done := rfl
@[simp] theorem setBlk_err (b : Block) (s : State) : (setBlk b s).err = s.err := rfl
@[simp] theorem setBlk_ksValid (b : Block) (s : State) : (setBlk b s).ksValid = s.ksValid := rfl
@[simp] theorem setBlk_padErr (b : Block) (s : State) : (setBlk b s).padErr = s.padErr := rfl
@[simp] theorem setBlk_errCode (b : Block) (s : State) : (setBlk b s).errCode = s.errCode := rfl
@[simp] theorem setBlk_blkX (b : Block) (s : State) : (setBlk b s).blkX = b.x := rfl
@[simp] theorem setBlk_blkY (b : Block) (s : State) : (setBlk b s).blkY = b.y := rfl
@[simp] theorem setBlk_ivLo (b : Block) (s : State) : (setBlk b s).ivLo = s.ivLo := rfl
@[simp] theorem setBlk_ivHi (b : Block) (s : State) : (setBlk b s).ivHi = s.ivHi := rfl
@[simp] theorem setBlk_len0 (b : Block) (s : State) : (setBlk b s).len0 = s.len0 := rfl
@[simp] theorem setBlk_len1 (b : Block) (s : State) : (setBlk b s).len1 = s.len1 := rfl
@[simp] theorem setBlk_len2 (b : Block) (s : State) : (setBlk b s).len2 = s.len2 := rfl
@[simp] theorem setBlk_rk (b : Block) (s : State) : (setBlk b s).rk = s.rk := rfl
@[simp] theorem setBlk_cv (b : Block) (s : State) : (setBlk b s).cv = s.cv := rfl
@[simp] theorem setBlk_pend (b : Block) (s : State) : (setBlk b s).pend = s.pend := rfl
@[simp] theorem setBlk_mem (b : Block) (s : State) : (setBlk b s).mem = s.mem := rfl
@[simp] theorem setBlk_cfg (b : Block) (s : State) : (setBlk b s).cfg = s.cfg := rfl
@[simp] theorem setBlk_draws (b : Block) (s : State) : (setBlk b s).draws = s.draws := rfl
@[simp] theorem setBlk_inputs (b : Block) (s : State) : (setBlk b s).inputs = s.inputs := rfl
@[simp] theorem setBlk_resp (b : Block) (s : State) : (setBlk b s).resp = s.resp := rfl

/-! ### bufWrite -/

@[simp] theorem bufWrite_busy (s : State) (b : Buf) (o : Nat) (d : Bytes) : (s.bufWrite b o d).busy = s.busy := rfl
@[simp] theorem bufWrite_done (s : State) (b : Buf) (o : Nat) (d : Bytes) : (s.bufWrite b o d).done = s.done := rfl
@[simp] theorem bufWrite_err (s : State) (b : Buf) (o : Nat) (d : Bytes) : (s.bufWrite b o d).err = s.err := rfl
@[simp] theorem bufWrite_ksValid (s : State) (b : Buf) (o : Nat) (d : Bytes) : (s.bufWrite b o d).ksValid = s.ksValid := rfl
@[simp] theorem bufWrite_padErr (s : State) (b : Buf) (o : Nat) (d : Bytes) : (s.bufWrite b o d).padErr = s.padErr := rfl
@[simp] theorem bufWrite_errCode (s : State) (b : Buf) (o : Nat) (d : Bytes) : (s.bufWrite b o d).errCode = s.errCode := rfl
@[simp] theorem bufWrite_blkX (s : State) (b : Buf) (o : Nat) (d : Bytes) : (s.bufWrite b o d).blkX = s.blkX := rfl
@[simp] theorem bufWrite_blkY (s : State) (b : Buf) (o : Nat) (d : Bytes) : (s.bufWrite b o d).blkY = s.blkY := rfl
@[simp] theorem bufWrite_ivLo (s : State) (b : Buf) (o : Nat) (d : Bytes) : (s.bufWrite b o d).ivLo = s.ivLo := rfl
@[simp] theorem bufWrite_ivHi (s : State) (b : Buf) (o : Nat) (d : Bytes) : (s.bufWrite b o d).ivHi = s.ivHi := rfl
@[simp] theorem bufWrite_len0 (s : State) (b : Buf) (o : Nat) (d : Bytes) : (s.bufWrite b o d).len0 = s.len0 := rfl
@[simp] theorem bufWrite_len1 (s : State) (b : Buf) (o : Nat) (d : Bytes) : (s.bufWrite b o d).len1 = s.len1 := rfl
@[simp] theorem bufWrite_len2 (s : State) (b : Buf) (o : Nat) (d : Bytes) : (s.bufWrite b o d).len2 = s.len2 := rfl
@[simp] theorem bufWrite_rk (s : State) (b : Buf) (o : Nat) (d : Bytes) : (s.bufWrite b o d).rk = s.rk := rfl
@[simp] theorem bufWrite_cv (s : State) (b : Buf) (o : Nat) (d : Bytes) : (s.bufWrite b o d).cv = s.cv := rfl
@[simp] theorem bufWrite_pend (s : State) (b : Buf) (o : Nat) (d : Bytes) : (s.bufWrite b o d).pend = s.pend := rfl
@[simp] theorem bufWrite_mem (s : State) (b : Buf) (o : Nat) (d : Bytes) : (s.bufWrite b o d).mem = Memory.setBytes s.mem (bufAddr b o) d := rfl
@[simp] theorem bufWrite_cfg (s : State) (b : Buf) (o : Nat) (d : Bytes) : (s.bufWrite b o d).cfg = s.cfg := rfl
@[simp] theorem bufWrite_draws (s : State) (b : Buf) (o : Nat) (d : Bytes) : (s.bufWrite b o d).draws = s.draws := rfl
@[simp] theorem bufWrite_inputs (s : State) (b : Buf) (o : Nat) (d : Bytes) : (s.bufWrite b o d).inputs = s.inputs := rfl
@[simp] theorem bufWrite_resp (s : State) (b : Buf) (o : Nat) (d : Bytes) : (s.bufWrite b o d).resp = s.resp := rfl

/-! ### writeStatus -/

@[simp] theorem writeStatus_busy (v : Word) (s : State) : (writeStatus v s).busy = s.busy := rfl
@[simp] theorem writeStatus_done (v : Word) (s : State) : (writeStatus v s).done = (s.done && !v.getLsbD 1) := rfl
@[simp] theorem writeStatus_err (v : Word) (s : State) : (writeStatus v s).err = (s.err && !v.getLsbD 2) := rfl
@[simp] theorem writeStatus_ksValid (v : Word) (s : State) : (writeStatus v s).ksValid = s.ksValid := rfl
@[simp] theorem writeStatus_padErr (v : Word) (s : State) : (writeStatus v s).padErr = (s.padErr && !v.getLsbD 4) := rfl
@[simp] theorem writeStatus_errCode (v : Word) (s : State) : (writeStatus v s).errCode = (if v.getLsbD 2 then 0 else s.errCode) := rfl
@[simp] theorem writeStatus_blkX (v : Word) (s : State) : (writeStatus v s).blkX = s.blkX := rfl
@[simp] theorem writeStatus_blkY (v : Word) (s : State) : (writeStatus v s).blkY = s.blkY := rfl
@[simp] theorem writeStatus_ivLo (v : Word) (s : State) : (writeStatus v s).ivLo = s.ivLo := rfl
@[simp] theorem writeStatus_ivHi (v : Word) (s : State) : (writeStatus v s).ivHi = s.ivHi := rfl
@[simp] theorem writeStatus_len0 (v : Word) (s : State) : (writeStatus v s).len0 = s.len0 := rfl
@[simp] theorem writeStatus_len1 (v : Word) (s : State) : (writeStatus v s).len1 = s.len1 := rfl
@[simp] theorem writeStatus_len2 (v : Word) (s : State) : (writeStatus v s).len2 = s.len2 := rfl
@[simp] theorem writeStatus_rk (v : Word) (s : State) : (writeStatus v s).rk = s.rk := rfl
@[simp] theorem writeStatus_cv (v : Word) (s : State) : (writeStatus v s).cv = s.cv := rfl
@[simp] theorem writeStatus_pend (v : Word) (s : State) : (writeStatus v s).pend = s.pend := rfl
@[simp] theorem writeStatus_mem (v : Word) (s : State) : (writeStatus v s).mem = s.mem := rfl
@[simp] theorem writeStatus_cfg (v : Word) (s : State) : (writeStatus v s).cfg = s.cfg := rfl
@[simp] theorem writeStatus_draws (v : Word) (s : State) : (writeStatus v s).draws = s.draws := rfl
@[simp] theorem writeStatus_inputs (v : Word) (s : State) : (writeStatus v s).inputs = s.inputs := rfl
@[simp] theorem writeStatus_resp (v : Word) (s : State) : (writeStatus v s).resp = s.resp := rfl

/-! ### respond -/

@[simp] theorem respond_busy (r : Option BusResponse) (s : State) : (respond r s).busy = s.busy := rfl
@[simp] theorem respond_done (r : Option BusResponse) (s : State) : (respond r s).done = s.done := rfl
@[simp] theorem respond_err (r : Option BusResponse) (s : State) : (respond r s).err = s.err := rfl
@[simp] theorem respond_ksValid (r : Option BusResponse) (s : State) : (respond r s).ksValid = s.ksValid := rfl
@[simp] theorem respond_padErr (r : Option BusResponse) (s : State) : (respond r s).padErr = s.padErr := rfl
@[simp] theorem respond_errCode (r : Option BusResponse) (s : State) : (respond r s).errCode = s.errCode := rfl
@[simp] theorem respond_blkX (r : Option BusResponse) (s : State) : (respond r s).blkX = s.blkX := rfl
@[simp] theorem respond_blkY (r : Option BusResponse) (s : State) : (respond r s).blkY = s.blkY := rfl
@[simp] theorem respond_ivLo (r : Option BusResponse) (s : State) : (respond r s).ivLo = s.ivLo := rfl
@[simp] theorem respond_ivHi (r : Option BusResponse) (s : State) : (respond r s).ivHi = s.ivHi := rfl
@[simp] theorem respond_len0 (r : Option BusResponse) (s : State) : (respond r s).len0 = s.len0 := rfl
@[simp] theorem respond_len1 (r : Option BusResponse) (s : State) : (respond r s).len1 = s.len1 := rfl
@[simp] theorem respond_len2 (r : Option BusResponse) (s : State) : (respond r s).len2 = s.len2 := rfl
@[simp] theorem respond_rk (r : Option BusResponse) (s : State) : (respond r s).rk = s.rk := rfl
@[simp] theorem respond_cv (r : Option BusResponse) (s : State) : (respond r s).cv = s.cv := rfl
@[simp] theorem respond_pend (r : Option BusResponse) (s : State) : (respond r s).pend = s.pend := rfl
@[simp] theorem respond_mem (r : Option BusResponse) (s : State) : (respond r s).mem = s.mem := rfl
@[simp] theorem respond_cfg (r : Option BusResponse) (s : State) : (respond r s).cfg = s.cfg := rfl
@[simp] theorem respond_draws (r : Option BusResponse) (s : State) : (respond r s).draws = s.draws := rfl
@[simp] theorem respond_inputs (r : Option BusResponse) (s : State) : (respond r s).inputs = s.inputs := rfl
@[simp] theorem respond_resp (r : Option BusResponse) (s : State) : (respond r s).resp = r := rfl

/-! ### resetStep -/

@[simp] theorem resetStep_busy (s : State) : (resetStep s).busy = false := rfl
@[simp] theorem resetStep_done (s : State) : (resetStep s).done = false := rfl
@[simp] theorem resetStep_err (s : State) : (resetStep s).err = false := rfl
@[simp] theorem resetStep_ksValid (s : State) : (resetStep s).ksValid = false := rfl
@[simp] theorem resetStep_padErr (s : State) : (resetStep s).padErr = false := rfl
@[simp] theorem resetStep_errCode (s : State) : (resetStep s).errCode = 0 := rfl
@[simp] theorem resetStep_blkX (s : State) : (resetStep s).blkX = 0 := rfl
@[simp] theorem resetStep_blkY (s : State) : (resetStep s).blkY = 0 := rfl
@[simp] theorem resetStep_ivLo (s : State) : (resetStep s).ivLo = 0 := rfl
@[simp] theorem resetStep_ivHi (s : State) : (resetStep s).ivHi = 0 := rfl
@[simp] theorem resetStep_len0 (s : State) : (resetStep s).len0 = 0 := rfl
@[simp] theorem resetStep_len1 (s : State) : (resetStep s).len1 = 0 := rfl
@[simp] theorem resetStep_len2 (s : State) : (resetStep s).len2 = 0 := rfl
@[simp] theorem resetStep_rk (s : State) : (resetStep s).rk = Vector.replicate 32 0 := rfl
@[simp] theorem resetStep_cv (s : State) : (resetStep s).cv = ⟨0, 0⟩ := rfl
@[simp] theorem resetStep_pend (s : State) : (resetStep s).pend = none := rfl
@[simp] theorem resetStep_mem (s : State) : (resetStep s).mem = [] := rfl
@[simp] theorem resetStep_cfg (s : State) : (resetStep s).cfg = s.cfg := rfl
@[simp] theorem resetStep_draws (s : State) : (resetStep s).draws = s.draws := rfl
@[simp] theorem resetStep_inputs (s : State) : (resetStep s).inputs = s.inputs := rfl
@[simp] theorem resetStep_resp (s : State) : (resetStep s).resp = s.resp := rfl

/-! ### setLen: one buffer's length, case by case -/

@[simp] theorem setLen_busy (s : State) (b : Buf) (v : Word) : (s.setLen b v).busy = s.busy := by cases b <;> rfl
@[simp] theorem setLen_done (s : State) (b : Buf) (v : Word) : (s.setLen b v).done = s.done := by cases b <;> rfl
@[simp] theorem setLen_err (s : State) (b : Buf) (v : Word) : (s.setLen b v).err = s.err := by cases b <;> rfl
@[simp] theorem setLen_ksValid (s : State) (b : Buf) (v : Word) : (s.setLen b v).ksValid = s.ksValid := by cases b <;> rfl
@[simp] theorem setLen_padErr (s : State) (b : Buf) (v : Word) : (s.setLen b v).padErr = s.padErr := by cases b <;> rfl
@[simp] theorem setLen_errCode (s : State) (b : Buf) (v : Word) : (s.setLen b v).errCode = s.errCode := by cases b <;> rfl
@[simp] theorem setLen_blkX (s : State) (b : Buf) (v : Word) : (s.setLen b v).blkX = s.blkX := by cases b <;> rfl
@[simp] theorem setLen_blkY (s : State) (b : Buf) (v : Word) : (s.setLen b v).blkY = s.blkY := by cases b <;> rfl
@[simp] theorem setLen_ivLo (s : State) (b : Buf) (v : Word) : (s.setLen b v).ivLo = s.ivLo := by cases b <;> rfl
@[simp] theorem setLen_ivHi (s : State) (b : Buf) (v : Word) : (s.setLen b v).ivHi = s.ivHi := by cases b <;> rfl
@[simp] theorem setLen_rk (s : State) (b : Buf) (v : Word) : (s.setLen b v).rk = s.rk := by cases b <;> rfl
@[simp] theorem setLen_cv (s : State) (b : Buf) (v : Word) : (s.setLen b v).cv = s.cv := by cases b <;> rfl
@[simp] theorem setLen_pend (s : State) (b : Buf) (v : Word) : (s.setLen b v).pend = s.pend := by cases b <;> rfl
@[simp] theorem setLen_mem (s : State) (b : Buf) (v : Word) : (s.setLen b v).mem = s.mem := by cases b <;> rfl
@[simp] theorem setLen_cfg (s : State) (b : Buf) (v : Word) : (s.setLen b v).cfg = s.cfg := by cases b <;> rfl
@[simp] theorem setLen_draws (s : State) (b : Buf) (v : Word) : (s.setLen b v).draws = s.draws := by cases b <;> rfl
@[simp] theorem setLen_inputs (s : State) (b : Buf) (v : Word) : (s.setLen b v).inputs = s.inputs := by cases b <;> rfl
@[simp] theorem setLen_resp (s : State) (b : Buf) (v : Word) : (s.setLen b v).resp = s.resp := by cases b <;> rfl
@[simp] theorem setLen_len_self (s : State) (b : Buf) (v : Word) : (s.setLen b v).len b = v := by cases b <;> rfl
theorem setLen_len_other (s : State) (b c : Buf) (v : Word) (h : c ≠ b) : (s.setLen b v).len c = s.len c := by
  cases b <;> cases c <;> first | rfl | exact absurd rfl h

/-! ### ensureKs: only RK and KS_VALID -/

@[simp] theorem ensureKs_busy (s : State) : (ensureKs s).busy = s.busy := by unfold ensureKs; split <;> rfl
@[simp] theorem ensureKs_done (s : State) : (ensureKs s).done = s.done := by unfold ensureKs; split <;> rfl
@[simp] theorem ensureKs_err (s : State) : (ensureKs s).err = s.err := by unfold ensureKs; split <;> rfl
@[simp] theorem ensureKs_ksValid (s : State) : (ensureKs s).ksValid = true := by
  unfold ensureKs; split <;> simp_all
@[simp] theorem ensureKs_padErr (s : State) : (ensureKs s).padErr = s.padErr := by unfold ensureKs; split <;> rfl
@[simp] theorem ensureKs_errCode (s : State) : (ensureKs s).errCode = s.errCode := by unfold ensureKs; split <;> rfl
@[simp] theorem ensureKs_blkX (s : State) : (ensureKs s).blkX = s.blkX := by unfold ensureKs; split <;> rfl
@[simp] theorem ensureKs_blkY (s : State) : (ensureKs s).blkY = s.blkY := by unfold ensureKs; split <;> rfl
@[simp] theorem ensureKs_ivLo (s : State) : (ensureKs s).ivLo = s.ivLo := by unfold ensureKs; split <;> rfl
@[simp] theorem ensureKs_ivHi (s : State) : (ensureKs s).ivHi = s.ivHi := by unfold ensureKs; split <;> rfl
@[simp] theorem ensureKs_len0 (s : State) : (ensureKs s).len0 = s.len0 := by unfold ensureKs; split <;> rfl
@[simp] theorem ensureKs_len1 (s : State) : (ensureKs s).len1 = s.len1 := by unfold ensureKs; split <;> rfl
@[simp] theorem ensureKs_len2 (s : State) : (ensureKs s).len2 = s.len2 := by unfold ensureKs; split <;> rfl
theorem ensureKs_rk (s : State) : (ensureKs s).rk = if s.ksValid then s.rk else keySchedule s.cfg.key := by
  unfold ensureKs; split <;> rfl
@[simp] theorem ensureKs_cv (s : State) : (ensureKs s).cv = s.cv := by unfold ensureKs; split <;> rfl
@[simp] theorem ensureKs_pend (s : State) : (ensureKs s).pend = s.pend := by unfold ensureKs; split <;> rfl
@[simp] theorem ensureKs_mem (s : State) : (ensureKs s).mem = s.mem := by unfold ensureKs; split <;> rfl
@[simp] theorem ensureKs_cfg (s : State) : (ensureKs s).cfg = s.cfg := by unfold ensureKs; split <;> rfl
@[simp] theorem ensureKs_draws (s : State) : (ensureKs s).draws = s.draws := by unfold ensureKs; split <;> rfl
@[simp] theorem ensureKs_inputs (s : State) : (ensureKs s).inputs = s.inputs := by unfold ensureKs; split <;> rfl
@[simp] theorem ensureKs_resp (s : State) : (ensureKs s).resp = s.resp := by unfold ensureKs; split <;> rfl

/-! ### LEN[b] through the other updates -/

@[simp] theorem finish_len (s : State) (c : Buf) : (finish s).len c = s.len c := by cases c <;> rfl
@[simp] theorem rejectIssue_len (e : CmdError) (s : State) (c : Buf) : (rejectIssue e s).len c = s.len c := by cases c <;> rfl
@[simp] theorem acceptIssue_len (i : Instr) (s : State) (c : Buf) : (acceptIssue i s).len c = s.len c := by cases c <;> rfl
@[simp] theorem setBlk_len (b : Block) (s : State) (c : Buf) : (setBlk b s).len c = s.len c := by cases c <;> rfl
@[simp] theorem bufWrite_len (s : State) (b : Buf) (o : Nat) (d : Bytes) (c : Buf) : (s.bufWrite b o d).len c = s.len c := by cases c <;> rfl
@[simp] theorem writeStatus_len (v : Word) (s : State) (c : Buf) : (writeStatus v s).len c = s.len c := by cases c <;> rfl
@[simp] theorem respond_len (r : Option BusResponse) (s : State) (c : Buf) : (respond r s).len c = s.len c := by cases c <;> rfl
@[simp] theorem resetStep_len (s : State) (b : Buf) : (resetStep s).len b = 0 := by cases b <;> rfl
@[simp] theorem ensureKs_len (s : State) (b : Buf) : (ensureKs s).len b = s.len b := by cases b <;> simp [State.len]

end Sys2Proof.Machine
end

