-- ==== Sys2Proof/Laws/Memory.lean ====
section
/-! SUPPORT. The laws of the memory of written buffer bytes: read after write, the canonical form kept by every
operation, and what BufRead and BufWrite do (spec/00_scope.md R15, 10_state.md R57). -/

namespace Sys2Proof.Machine

/-! ### One byte -/

theorem memory_get_set_self (m : List Host.Cell) (a : Nat) (v : Byte) : Memory.get (Memory.set m a v) a = some v := by
  induction m with
  | nil => simp [Memory.set, Memory.get]
  | cons c m ih =>
    unfold Memory.set
    split
    · simp [Memory.get]
    · split
      · simp [Memory.get]
      · rename_i h
        simp [Memory.get, Ne.symm h, ih]

theorem memory_get_set_other (m : List Host.Cell) (a x : Nat) (v : Byte) (h : x ≠ a) :
    Memory.get (Memory.set m a v) x = Memory.get m x := by
  induction m with
  | nil => simp [Memory.set, Memory.get, Ne.symm h]
  | cons c m ih =>
    unfold Memory.set
    split
    · simp [Memory.get, Ne.symm h]
    · split
      · rename_i _ hc
        simp [Memory.get, Ne.symm h, ← hc]
      · simp only [Memory.get, ih]

/-- The canonical form of a list with a first entry: that entry lies below every other one. -/
theorem memory_wf_cons (c : Host.Cell) (m : List Host.Cell) :
    Memory.wf (c :: m) = true ↔ (∀ d ∈ m, c.1 < d.1) ∧ Memory.wf m = true := by
  induction m generalizing c with
  | nil => simp [Memory.wf]
  | cons d m ih =>
    simp only [Memory.wf, Bool.and_eq_true, decide_eq_true_eq, List.mem_cons, forall_eq_or_imp]
    constructor
    · rintro ⟨hcd, hw⟩
      exact ⟨⟨hcd, fun e he => lt_trans hcd (((ih d).1 hw).1 e he)⟩, hw⟩
    · rintro ⟨⟨hcd, _⟩, hw⟩
      exact ⟨hcd, hw⟩

/-- Every entry after a store is the stored one or was there before. -/
theorem memory_mem_set (m : List Host.Cell) (a : Nat) (v : Byte) (c : Host.Cell) (h : c ∈ Memory.set m a v) :
    c = (a, v) ∨ c ∈ m := by
  induction m with
  | nil => simpa [Memory.set] using h
  | cons d m ih =>
    unfold Memory.set at h
    split at h
    · simpa using h
    · split at h
      · rcases List.mem_cons.1 h with h | h
        · exact .inl h
        · exact .inr (List.mem_cons_of_mem _ h)
      · rcases List.mem_cons.1 h with h | h
        · exact .inr (by simp [h])
        · exact (ih h).imp id (List.mem_cons_of_mem _)

theorem memory_wf_set (m : List Host.Cell) (a : Nat) (v : Byte) (h : Memory.wf m = true) :
    Memory.wf (Memory.set m a v) = true := by
  induction m with
  | nil => rfl
  | cons c m ih =>
    have ⟨hlt, hm⟩ := (memory_wf_cons c m).1 h
    unfold Memory.set
    split
    · rename_i hac
      refine (memory_wf_cons _ _).2 ⟨fun d hd => ?_, h⟩
      rcases List.mem_cons.1 hd with rfl | hd
      · exact hac
      · exact lt_trans hac (hlt d hd)
    · split
      · rename_i hac
        exact (memory_wf_cons _ _).2 ⟨fun d hd => by simpa [hac] using hlt d hd, hm⟩
      · refine (memory_wf_cons _ _).2 ⟨fun d hd => ?_, ih hm⟩
        rcases memory_mem_set m a v d hd with rfl | hd
        · simp only; omega
        · exact hlt d hd

/-! ### Byte sequences -/

theorem memory_wf_setBytes (data : Bytes) (m : List Host.Cell) (a : Nat) (h : Memory.wf m = true) :
    Memory.wf (Memory.setBytes m a data) = true := by
  induction data generalizing m a with
  | nil => exact h
  | cons v data ih => exact ih _ _ (memory_wf_set m a v h)

/-- A store leaves every address outside the stored bytes as it was. -/
theorem memory_get_setBytes_outside (data : Bytes) (m : List Host.Cell) (a x : Nat)
    (h : x < a ∨ a + data.length ≤ x) : Memory.get (Memory.setBytes m a data) x = Memory.get m x := by
  induction data generalizing m a with
  | nil => rfl
  | cons v data ih =>
    simp only [List.length_cons] at h
    rw [Memory.setBytes, ih _ _ (by omega), memory_get_set_other _ _ _ _ (by omega)]

/-- A store puts byte `k` of the data at the `k`-th address. -/
theorem memory_get_setBytes_inside (data : Bytes) (m : List Host.Cell) (a k : Nat) (h : k < data.length) :
    Memory.get (Memory.setBytes m a data) (a + k) = some data[k] := by
  induction data generalizing m a k with
  | nil => simp at h
  | cons v data ih =>
    cases k with
    | zero =>
      rw [Memory.setBytes, memory_get_setBytes_outside _ _ _ _ (by omega)]
      exact memory_get_set_self m a v
    | succ k =>
      simp only [List.length_cons] at h
      rw [Memory.setBytes, show a + (k + 1) = a + 1 + k by omega, ih _ _ _ (by omega)]
      rfl

/-- Every entry after a store lies in the stored range or was there before. -/
theorem memory_mem_setBytes (data : Bytes) (m : List Host.Cell) (a : Nat) (c : Host.Cell)
    (h : c ∈ Memory.setBytes m a data) : (a ≤ c.1 ∧ c.1 < a + data.length) ∨ c ∈ m := by
  induction data generalizing m a with
  | nil => exact .inr h
  | cons v data ih =>
    simp only [List.length_cons]
    rcases ih _ _ h with h | h
    · exact .inl (by omega)
    · rcases memory_mem_set m a v c h with rfl | h
      · exact .inl (by simp)
      · exact .inr h

/-! ### BufRead and BufWrite -/

theorem bufAddr_add (b : Buf) (o k : Nat) : bufAddr b (o + k) = bufAddr b o + k := by
  unfold bufAddr; omega

/-- Within a window's 65536 bytes, buffer and offset can be read off the address. -/
theorem bufAddr_injective (b c : Buf) (o q : Nat) (ho : o < 65536) (hq : q < 65536) (h : bufAddr b o = bufAddr c q) :
    b = c ∧ o = q := by
  cases b <;> cases c <;> simp [bufAddr, bufIndex] at h ⊢ <;> omega

/-- A BufRead that answers gives exactly the bytes of the range, all of them written. -/
theorem bufRead_ok_iff (s : State) (b : Buf) (o n : Nat) (l : Bytes) :
    s.bufRead b o n = .ok l ↔ l.length = n ∧ ∀ k (h : k < l.length), s.byteAt b (o + k) = some l[k] := by
  induction n generalizing o l with
  | zero =>
    simp only [State.bufRead, Except.ok.injEq]
    constructor
    · rintro rfl; simp
    · rintro ⟨h, _⟩; exact (List.length_eq_zero_iff.1 h).symm
  | succ n ih =>
    unfold State.bufRead
    constructor
    · intro h
      split at h
      · cases h
      · rename_i v hv
        split at h
        · rename_i rest hrest
          obtain rfl := Except.ok.inj h
          obtain ⟨hl, hk⟩ := (ih _ _).1 hrest
          refine ⟨by simp [hl], fun k hlt => ?_⟩
          cases k with
          | zero => simpa using hv
          | succ k =>
            simp only [List.length_cons] at hlt
            have := hk k (by omega)
            rw [show o + 1 + k = o + (k + 1) by omega] at this
            simpa using this
        · cases h
    · rintro ⟨hl, hk⟩
      cases l with
      | nil => simp at hl
      | cons v rest =>
        have h0 : s.byteAt b o = some v := hk 0 (by simp)
        have hr : s.bufRead b (o + 1) n = .ok rest := by
          refine (ih _ _).2 ⟨by simpa using hl, fun k h => ?_⟩
          have := hk (k + 1) (by simpa using h)
          rw [show o + 1 + k = o + (k + 1) by omega]
          simpa using this
        simp [h0, hr]

/-- A BufRead that does not answer names the first unwritten byte of the range. -/
theorem bufRead_error (s : State) (b : Buf) (o n : Nat) (f : Fault) (h : s.bufRead b o n = .error f) :
    ∃ k < n, f = .unwrittenByte b (o + k) ∧ s.byteAt b (o + k) = none ∧ ∀ j < k, s.byteAt b (o + j) ≠ none := by
  induction n generalizing o with
  | zero => cases h
  | succ n ih =>
    unfold State.bufRead at h
    split at h
    · rename_i hv
      obtain rfl := Except.error.inj h
      exact ⟨0, by omega, rfl, hv, fun j hj => absurd hj (by omega)⟩
    · rename_i v hv
      split at h
      · cases h
      · rename_i g hg
        obtain rfl := Except.error.inj h
        obtain ⟨k, hk, he, hn, hj⟩ := ih _ hg
        refine ⟨k + 1, by omega, ?_, ?_, fun j hjk => ?_⟩
        · rw [he, show o + 1 + k = o + (k + 1) by omega]
        · rw [show o + (k + 1) = o + 1 + k by omega]; exact hn
        · cases j with
          | zero => simp [hv]
          | succ j => rw [show o + (j + 1) = o + 1 + j by omega]; exact hj j (by omega)

/-- BufWrite puts byte `k` of the data at offset `o + k`. -/
theorem byteAt_bufWrite_inside (s : State) (b : Buf) (o : Nat) (data : Bytes) (k : Nat) (h : k < data.length) :
    (s.bufWrite b o data).byteAt b (o + k) = some data[k] := by
  unfold State.byteAt
  rw [bufWrite_mem, bufAddr_add, memory_get_setBytes_inside _ _ _ _ h]

/-- BufWrite leaves every address outside the written range as it was. -/
theorem get_bufWrite_outside (s : State) (b : Buf) (o a : Nat) (data : Bytes)
    (h : a < bufAddr b o ∨ bufAddr b o + data.length ≤ a) :
    Memory.get (s.bufWrite b o data).mem a = Memory.get s.mem a :=
  memory_get_setBytes_outside data s.mem _ _ h

theorem wf_bufWrite (s : State) (b : Buf) (o : Nat) (data : Bytes) (h : Memory.wf s.mem = true) :
    Memory.wf (s.bufWrite b o data).mem = true := memory_wf_setBytes data s.mem _ h

/-- Reset's memory has the canonical form. -/
theorem wf_reset : Memory.wf State.reset.mem = true := rfl

end Sys2Proof.Machine
end

