-- ==== Sys2Proof/Laws/Ops.lean ====
section
/-! SUPPORT. What each shared operation can do, said once: the issue, the completion, ENSURE_KS and the buffer
commands. -/

namespace Sys2Proof.Machine

/-- A buffer that holds `data` is read as `data`, and the other way round. -/
theorem holds_iff_bufRead (s : State) (b : Buf) (data : Bytes) :
    s.Holds b data ↔ s.bufRead b 0 (s.len b).toNat = .ok data := by
  rw [bufRead_ok_iff]; simp [State.Holds]

/-! ### Issue -/

/-- `check(v)` answers a command exactly when the word decodes to it and its length check holds. -/
theorem check_ok_iff (v : Word) (s : State) (i : Instr) :
    check v s = .ok i ↔ decode v = .ok i ∧ lenOk i s = true := by
  unfold check
  cases h : decode v with
  | error e => simp
  | ok j =>
    by_cases hl : lenOk j s = true
    · simp only [hl, if_true, Except.ok.injEq]
      constructor
      · rintro rfl; exact ⟨rfl, hl⟩
      · exact fun h => h.1
    · simp only [hl, Bool.false_eq_true, if_false, Except.ok.injEq, reduceCtorEq, false_iff, not_and]
      rintro rfl; exact hl

/-- An issue is rejected or accepted, as the check says. -/
theorem issue_cases (v : Word) (s : State) :
    (∃ e, check v s = .error e ∧ issue v s = rejectIssue e s) ∨
    (∃ i, check v s = .ok i ∧ issue v s = acceptIssue i s) := by
  unfold issue
  cases check v s with
  | error e => exact .inl ⟨e, rfl, rfl⟩
  | ok i => exact .inr ⟨i, rfl, rfl⟩

/-! ### ENSURE_KS -/

theorem ensureKs_of_valid (s : State) (h : s.ksValid = true) : ensureKs s = s := by simp [ensureKs, h]

theorem ensureKs_of_invalid (s : State) (h : s.ksValid = false) :
    ensureKs s = { s with rk := keySchedule s.cfg.key, ksValid := true } := by simp [ensureKs, h]

/-- ENSURE_KS keeps the keys right, and with them right RK is the key schedule after it. -/
theorem ensureKs_rk_of_keysOk (s : State) (h : s.KeysOk) : (ensureKs s).rk = keySchedule s.cfg.key := by
  rw [ensureKs_rk]; split
  · rename_i hv; exact h hv
  · rfl

/-! ### The buffer commands -/

/-- A buffer command that passes its check and whose source is written: the output and its length stored, nothing
pending. -/
theorem bufferCommand_of_holds {ok : Params → Word → Bool} {eff : Bytes → State → Bytes × State} {src dst : BitVec 2}
    {s : State} {b d : Buf} {data : Bytes} (hb : bufOf src = some b) (hd : bufOf dst = some d)
    (hok : ok s.cfg (s.len b) = true) (h : s.Holds b data) :
    bufferCommand ok eff src dst s =
      .next (finish (((eff data s).2.bufWrite d 0 (eff data s).1).setLen d (BitVec.ofNat 64 (eff data s).1.length))) := by
  have hr := (holds_iff_bufRead s b data).1 h
  simp [bufferCommand, hb, hd, hok, hr]

/-- All a buffer command can do when it answers a next state: it ran, or its own check does not hold. -/
theorem bufferCommand_next {ok : Params → Word → Bool} {eff : Bytes → State → Bytes × State} {src dst : BitVec 2}
    {s t : State} (h : bufferCommand ok eff src dst s = .next t) :
    (∃ b d data, bufOf src = some b ∧ bufOf dst = some d ∧ ok s.cfg (s.len b) = true ∧ s.Holds b data ∧
      t = finish (((eff data s).2.bufWrite d 0 (eff data s).1).setLen d (BitVec.ofNat 64 (eff data s).1.length))) ∨
    (∃ b, bufOf src = some b ∧ ok s.cfg (s.len b) = false ∧ t = failedCheck .badLen s) ∨
    ((bufOf src = none ∨ bufOf dst = none) ∧ t = failedCheck .badBuf s) := by
  unfold bufferCommand at h
  split at h
  · rename_i b d hb hd
    split at h
    · rename_i hok
      split at h
      · cases h
      · rename_i data hr
        cases h
        exact .inl ⟨b, d, data, hb, hd, hok, (holds_iff_bufRead s b data).2 hr, rfl⟩
    · rename_i hok
      cases h
      exact .inr (.inl ⟨b, hb, by simpa using hok, rfl⟩)
  · rename_i hno
    cases h
    refine .inr (.inr ⟨?_, rfl⟩)
    cases hs : bufOf src with
    | none => exact .inl rfl
    | some b =>
      cases hdst : bufOf dst with
      | none => exact .inr rfl
      | some d => exact absurd hdst (hno b d hs)

/-- A buffer command stops only at the first unwritten byte of its source. -/
theorem bufferCommand_fault {ok : Params → Word → Bool} {eff : Bytes → State → Bytes × State} {src dst : BitVec 2}
    {s : State} {f : Fault} (h : bufferCommand ok eff src dst s = .fault f) :
    ∃ b d k, bufOf src = some b ∧ bufOf dst = some d ∧ ok s.cfg (s.len b) = true ∧ k < (s.len b).toNat ∧
      f = .unwrittenByte b k ∧ s.byteAt b k = none ∧ ∀ j < k, s.byteAt b j ≠ none := by
  unfold bufferCommand at h
  split at h
  · rename_i b d hb hd
    split at h
    · rename_i hok
      split at h
      · rename_i g hg
        obtain rfl : g = f := by simpa using h
        obtain ⟨k, hk, he, hn, hj⟩ := bufRead_error _ _ _ _ _ hg
        simp only [Nat.zero_add] at he hn hj
        exact ⟨b, d, k, hb, hd, hok, hk, he, hn, hj⟩
      · cases h
    · cases h
  · cases h

/-- A buffer command that passes its check and has an unwritten byte in its source range stops at one. -/
theorem bufferCommand_unwritten {ok : Params → Word → Bool} {src dst : BitVec 2} {s : State} {b d : Buf} {k : Nat}
    (eff : Bytes → State → Bytes × State) (hb : bufOf src = some b) (hd : bufOf dst = some d)
    (hok : ok s.cfg (s.len b) = true) (hk : k < (s.len b).toNat) (hn : s.byteAt b k = none) :
    ∃ j, j < (s.len b).toNat ∧ s.byteAt b j = none ∧ bufferCommand ok eff src dst s = .fault (.unwrittenByte b j) := by
  cases hr : s.bufRead b 0 (s.len b).toNat with
  | ok l =>
    obtain ⟨hl, h⟩ := (bufRead_ok_iff _ _ _ _ _).1 hr
    have := h k (by omega)
    rw [Nat.zero_add, hn] at this
    cases this
  | error f =>
    obtain ⟨j, hj, rfl, hn', _⟩ := bufRead_error _ _ _ _ _ hr
    rw [Nat.zero_add] at hn'
    exact ⟨j, hj, hn', by simp [bufferCommand, hb, hd, hok, hr]⟩

/-- A source range that is written holds a byte sequence. -/
theorem holds_of_sourceWritten {i : Instr} {s : State} {src : BitVec 2} {b : Buf} (hs : sourceField i = some src)
    (hb : bufOf src = some b) (h : SourceWritten i s) : ∃ data, s.Holds b data := by
  cases hr : s.bufRead b 0 (s.len b).toNat with
  | ok l => exact ⟨l, (holds_iff_bufRead s b l).2 hr⟩
  | error f =>
    obtain ⟨j, hj, _, hn, _⟩ := bufRead_error _ _ _ _ _ hr
    rw [Nat.zero_add] at hn
    exact absurd hn (h b j ⟨⟨src, hs, hb⟩, hj⟩)

/-! ### Drawn IVs -/

/-- At most one draw asks nothing of the IV source (R17). -/
theorem ivDistinct_of_one_draw {s t : State} (h : t.draws ≤ s.draws + 1) : IvDistinct s t := by
  intro m n _ _ _; omega

/-- Distinct IVs in a run are distinct in each part of it. -/
theorem IvDistinct.mono {s t u v : State} (h : IvDistinct s t) (hu : s.draws ≤ u.draws) (hv : v.draws ≤ t.draws) :
    IvDistinct u v := fun m n h1 h2 h3 => h m n (hu.trans h1) h2 (h3.trans_le hv)

/-- No buffer command refuses. -/
theorem bufferCommand_not_refused (ok : Params → Word → Bool) (eff : Bytes → State → Bytes × State)
    (src dst : BitVec 2) (s : State) (r : Refusal) : bufferCommand ok eff src dst s ≠ .refused r := by
  unfold bufferCommand
  intro h
  split at h
  · split at h
    · split at h <;> cases h
    · cases h
  · cases h

end Sys2Proof.Machine
end

