-- ==== Sys2Proof/Laws/Bus.lean ====
section
/-! SUPPORT. What a host access, the engine's step and a step of the whole machine can do, said once. -/

namespace Sys2Proof.Machine

/-- All a host access can do: miss the block, be a bus error, read, or write. -/
theorem hostAccess_cases (acc : Access) (s : State) :
    (blockAddr s.cfg acc.addr = none ∧ hostAccess acc s = .next (respond none s)) ∨
    ∃ a, blockAddr s.cfg acc.addr = some a ∧
      ((isBusError s acc a = true ∧ hostAccess acc s = .next (respond (some (errorResponse acc.kind)) s)) ∨
       (isBusError s acc a = false ∧ acc.kind = .read ∧
          ((∃ v, readTarget s acc.width (targetOf a) = .ok v ∧
              hostAccess acc s = .next (respond (some ⟨false, some v⟩) s)) ∨
           (∃ f, readTarget s acc.width (targetOf a) = .error f ∧ hostAccess acc s = .fault f))) ∨
       (isBusError s acc a = false ∧ ∃ v, acc.kind = .write v ∧
          hostAccess acc s = .next (respond (some ⟨false, none⟩) (writeTarget s acc.width v (targetOf a))))) := by
  unfold hostAccess
  cases ha : blockAddr s.cfg acc.addr with
  | none => exact .inl ⟨rfl, rfl⟩
  | some a =>
    refine .inr ⟨a, rfl, ?_⟩
    cases he : isBusError s acc a with
    | true => exact .inl ⟨rfl, by simp [he]⟩
    | false =>
      cases hk : acc.kind with
      | read =>
        cases hr : readTarget s acc.width (targetOf a) with
        | ok v => exact .inr (.inl ⟨rfl, rfl, .inl ⟨v, rfl, by simp [he, hr]⟩⟩)
        | error f => exact .inr (.inl ⟨rfl, rfl, .inr ⟨f, rfl, by simp [he, hr]⟩⟩)
      | write v => exact .inr (.inr ⟨rfl, v, rfl, by simp [he]⟩)

/-- All the engine can do: perform the pending command, or nothing. -/
theorem engineStep_cases (s : State) :
    (∃ i, s.busy = true ∧ s.pend = some i ∧ engineStep s = exec i s) ∨
    ((s.busy = false ∨ s.pend = none) ∧ engineStep s = .next s) := by
  unfold engineStep
  cases hb : s.busy with
  | false => exact .inr ⟨.inl rfl, by simp⟩
  | true =>
    cases hp : s.pend with
    | none => exact .inr ⟨.inr rfl, by simp⟩
    | some i => exact .inl ⟨i, rfl, rfl, by simp⟩

/-- All one step can do: the engine's step when no event is left, else what the first event says. -/
theorem step_cases (s : State) :
    (s.inputs = [] ∧ step s = engineStep s) ∨
    (∃ acc rest, s.inputs = .host acc :: rest ∧ step s = hostAccess acc { s with inputs := rest }) ∨
    (∃ rest, s.inputs = .engine :: rest ∧ step s = engineStep { s with inputs := rest }) ∨
    (∃ rest, s.inputs = .reset :: rest ∧ step s = .next (resetStep { s with inputs := rest })) := by
  unfold step
  cases h : s.inputs with
  | nil => exact .inl ⟨rfl, rfl⟩
  | cons e rest =>
    cases e with
    | host acc => exact .inr (.inl ⟨acc, rest, rfl, rfl⟩)
    | engine => exact .inr (.inr (.inl ⟨rest, rfl, rfl⟩))
    | reset => exact .inr (.inr (.inr ⟨rest, rfl, rfl⟩))

theorem step_of_nil {s : State} (h : s.inputs = []) : step s = engineStep s := by simp [step, h]

theorem step_of_host {s : State} {acc : Access} {rest : List Event} (h : s.inputs = .host acc :: rest) :
    step s = hostAccess acc { s with inputs := rest } := by simp [step, h, handle]

theorem step_of_engine {s : State} {rest : List Event} (h : s.inputs = .engine :: rest) :
    step s = engineStep { s with inputs := rest } := by simp [step, h, handle]

theorem step_of_reset {s : State} {rest : List Event} (h : s.inputs = .reset :: rest) :
    step s = .next (resetStep { s with inputs := rest }) := by simp [step, h, handle]

/-- The register at a register's offset is that register (R32: no two names share an offset). -/
theorem regAt_regOffset (r : Reg) : regAt (regOffset r) = some r := by
  cases r with
  | len b => cases b <;> rfl
  | rk i => revert i; decide
  | _ => rfl

/-- A register's offset lies in the register window. -/
theorem regOffset_lt (r : Reg) : regOffset r < 0x200 := by
  cases r with
  | len b => cases b <;> decide
  | rk i => simp only [regOffset]; omega
  | _ => decide

/-- An address of the window reaches the block at its offset from P_BASE (R81). -/
theorem blockAddr_base_add (p : Params) (a : Nat) (h : a < 0x40000) : blockAddr p (p.base + a) = some a := by
  unfold blockAddr
  have h2 : p.base + a < p.base + Config.windowBytes := by simp only [Config.windowBytes]; omega
  rw [if_pos ⟨Nat.le_add_right _ _, h2⟩]
  simp

/-- The register window is the first 0x10000 addresses. -/
theorem targetOf_register (a : Nat) (h : a < 0x10000) : targetOf a = .register a := by
  simp [targetOf, Nat.div_eq_of_lt h]

/-- A buffer byte's address is in that buffer's window. -/
theorem targetOf_bufAddr (b : Buf) (o : Nat) (h : o < 0x10000) : targetOf (bufAddr b o) = .buffer b o := by
  unfold targetOf
  have hd : bufAddr b o / 0x10000 = bufIndex b + 1 := by unfold bufAddr; omega
  rw [hd]
  cases b <;> simp [bufIndex, bufAddr]

end Sys2Proof.Machine
end

