-- ==== Sys2Proof/Laws/Exec.lean ====
section
/-! SUPPORT. The lengths of what the CBC commands store, and all that a command's completion can do to the flags, the
keys and the memory, said once for the nine commands. -/

namespace Sys2Proof.Machine

theorem padBytes_length (S : Bytes) : (padBytes S).length = padLen S.length := by
  have : S.length ≤ padLen S.length := by unfold padLen; omega
  simp [padBytes, padVal]; omega

theorem cbcEncBlocks_length (rk : Vector Word 32) (n : Nat) (p cv : Bytes) :
    (cbcEncBlocks rk n p cv).1.length = 16 * n := by
  induction n generalizing p cv with
  | zero => rfl
  | succ n ih => simp only [cbcEncBlocks, List.length_append, encBytes_length, ih]; omega

theorem cbcDecBlocks_length (rk : Vector Word 32) (n : Nat) (c cv : Bytes) (hc : 16 * n ≤ c.length)
    (hv : cv.length = 16) : (cbcDecBlocks rk n c cv).1.length = 16 * n := by
  induction n generalizing c cv with
  | zero => rfl
  | succ n ih =>
    simp only [cbcDecBlocks, List.length_append, xorBytes_length, decBytes_length, hv]
    rw [ih _ _ (by simp; omega) (by simp; omega)]
    omega

/-- What every completion that passes its check leaves, besides its own result. -/
structure CommandRan (s t : State) : Prop where
  completed : Completed s t
  keys : KeysKept s t ∨ KeysEnsured s t
  memory : t.mem = s.mem ∨
    ∃ d out, t.mem = Memory.setBytes s.mem (bufAddr d 0) out ∧ (s.cfg.wf → out.length ≤ s.cfg.maxSize)

/-- What the effect of a buffer command leaves alone before the output is stored. -/
theorem bufferCommand_ran {i : Instr} {ok : Params → Word → Bool} {eff : Bytes → State → Bytes × State}
    {src dst : BitVec 2} {s t : State} (hwf : i.WellFormed → SelectsBuffer src ∧ SelectsBuffer dst)
    (hlen : lenOk i s = srcLenOk ok src s)
    (heff : ∀ S, (eff S s).2.mem = s.mem ∧ (eff S s).2.err = s.err ∧ (eff S s).2.errCode = s.errCode ∧
      (eff S s).2.ivLo = s.ivLo ∧ (eff S s).2.ivHi = s.ivHi ∧ (eff S s).2.cfg = s.cfg ∧
      (eff S s).2.inputs = s.inputs ∧ (eff S s).2.resp = s.resp ∧ (KeysKept s (eff S s).2 ∨ KeysEnsured s (eff S s).2))
    (hout : ∀ S b, ok s.cfg (s.len b) = true → S.length = (s.len b).toNat → s.cfg.wf →
      (eff S s).1.length ≤ s.cfg.maxSize)
    (h : bufferCommand ok eff src dst s = .next t) :
    CommandRan s t ∨ (¬ (i.WellFormed ∧ lenOk i s = true) ∧ ∃ e, t = failedCheck e s) := by
  rcases bufferCommand_next h with ⟨b, d, S, hb, hd, hok, hS, rfl⟩ | ⟨b, hb, hok, rfl⟩ | ⟨hno, rfl⟩
  · left
    obtain ⟨e1, e2, e3, e4, e5, e6, e7, e8, e9⟩ := heff S
    refine ⟨by simp [Completed, *], ?_, .inr ⟨d, (eff S s).1, by simp [e1], hout S b hok hS.1⟩⟩
    rcases e9 with ⟨h1, h2⟩ | ⟨h1, h2⟩
    · left; simp [KeysKept, h1, h2]
    · right; exact ⟨by simp [h1], by simp [h2]⟩
  · right
    refine ⟨?_, _, rfl⟩
    rw [hlen]; simp [srcLenOk, hb, hok]
  · right
    refine ⟨?_, _, rfl⟩
    rintro ⟨hw, _⟩
    obtain ⟨h1, h2⟩ := hwf hw
    obtain ⟨x, hx⟩ := bufOf_of_selects _ h1
    obtain ⟨y, hy⟩ := bufOf_of_selects _ h2
    rcases hno with h | h <;> simp_all

/-- All a command can do when it answers a next state: it ran, or its own check does not hold (log entry 12). -/
theorem exec_next {i : Instr} {s t : State} (h : exec i s = .next t) :
    CommandRan s t ∨ (¬ (i.WellFormed ∧ lenOk i s = true) ∧ ∃ e, t = failedCheck e s) := by
  cases i with
  | nop => cases h; left; exact ⟨by simp [Completed], .inl (by simp [KeysKept]), .inl (by simp)⟩
  | keyinit =>
    cases h; left; exact ⟨by simp [Completed], .inr (by simp [KeysEnsured, ensureKs_rk]), .inl (by simp)⟩
  | encb =>
    cases h; left; exact ⟨by simp [Completed], .inr (by simp [KeysEnsured, ensureKs_rk]), .inl (by simp)⟩
  | decb =>
    cases h; left; exact ⟨by simp [Completed], .inr (by simp [KeysEnsured, ensureKs_rk]), .inl (by simp)⟩
  | pad src dst =>
    refine bufferCommand_ran (fun hw => by simpa [Instr.WellFormed, Instr.wellFormed] using hw) rfl
      (fun S => by simp [padEffect, KeysKept]) (fun S b hok hS hw => ?_) h
    have hp := padBytes_length S
    unfold padLen at hp
    obtain ⟨hm, _⟩ := hw
    simp only [lenOkPad, decide_eq_true_eq] at hok
    simp only [padEffect]; omega
  | cbcenc src dst =>
    refine bufferCommand_ran (fun hw => by simpa [Instr.WellFormed, Instr.wellFormed] using hw) rfl
      (fun S => by simp [cbcencEffect, cbcencWith, KeysEnsured, ensureKs_rk]) (fun S b hok hS hw => ?_) h
    simp only [lenOkCbcenc, decide_eq_true_eq] at hok
    simp [cbcencEffect, cbcencWith, cbcEnc, cbcEncBlocks_length]; omega
  | cbcencInj src dst =>
    refine bufferCommand_ran (fun hw => by simpa [Instr.WellFormed, Instr.wellFormed] using hw) rfl
      (fun S => by simp [cbcencInjEffect, cbcencWith, KeysEnsured, ensureKs_rk]) (fun S b hok hS hw => ?_) h
    simp only [lenOkCbcenc, decide_eq_true_eq] at hok
    simp [cbcencInjEffect, cbcencWith, cbcEnc, cbcEncBlocks_length]; omega
  | cbcdec src dst =>
    refine bufferCommand_ran (fun hw => by simpa [Instr.WellFormed, Instr.wellFormed] using hw) rfl
      (fun S => by simp [cbcdecEffect, KeysEnsured, ensureKs_rk]) (fun S b hok hS hw => ?_) h
    simp only [lenOkCbcdec, decide_eq_true_eq] at hok
    simp only [cbcdecEffect, cbcDec]
    rw [cbcDecBlocks_length _ _ _ _ (by simp; omega) (by simp; omega)]
    omega
  | unpad src dst =>
    refine bufferCommand_ran (fun hw => by simpa [Instr.WellFormed, Instr.wellFormed] using hw) rfl
      (fun S => by simp [unpadEffect, KeysKept]) (fun S b hok hS hw => ?_) h
    simp only [lenOkUnpad, decide_eq_true_eq] at hok
    simp [unpadEffect]; omega

/-- All a command's stop can be: an unwritten byte of its source range (R57). -/
theorem exec_fault {i : Instr} {s : State} {f : Fault} (h : exec i s = .fault f) :
    ∃ b o, f = .unwrittenByte b o ∧ InSource i s b o ∧ s.byteAt b o = none := by
  cases i with
  | nop => cases h
  | keyinit => cases h
  | encb => cases h
  | decb => cases h
  | _ =>
    obtain ⟨b, _, k, hb, _, _, hk, rfl, hn, _⟩ := bufferCommand_fault h
    exact ⟨b, k, rfl, ⟨⟨_, rfl, hb⟩, hk⟩, hn⟩

/-- A command that passes its check and has an unwritten byte in its source range stops at such a byte (R57). -/
theorem exec_of_unwritten {i : Instr} {s : State} {b : Buf} {o : Nat} (hw : i.WellFormed) (hl : lenOk i s = true)
    (hi : InSource i s b o) (hn : s.byteAt b o = none) :
    ∃ o', InSource i s b o' ∧ s.byteAt b o' = none ∧ exec i s = .fault (.unwrittenByte b o') := by
  obtain ⟨⟨x, hs, hb⟩, ho⟩ := hi
  cases i with
  | nop => cases hs
  | keyinit => cases hs
  | encb => cases hs
  | decb => cases hs
  | _ =>
    rename_i src dst
    rw [← Option.some.inj hs] at hb
    obtain ⟨-, h2⟩ : SelectsBuffer src ∧ SelectsBuffer dst := by simpa [Instr.WellFormed, Instr.wellFormed] using hw
    obtain ⟨d, hd⟩ := bufOf_of_selects _ h2
    simp only [lenOk, srcLenOk, hb] at hl
    obtain ⟨j, hj, hn', he⟩ := bufferCommand_unwritten _ hb hd hl ho hn
    exact ⟨j, ⟨⟨_, rfl, hb⟩, hj⟩, hn', he⟩

end Sys2Proof.Machine
end

