-- ==== Sys2Proof/Laws/Host.lean ====
section
/-! SUPPORT. What a host access to a register or a buffer does when it is no bus error, and all that a host access can
change, said once (spec/20_memory.md R84 to R86, 60_exceptions.md R270, R271). -/

namespace Sys2Proof.Machine

/-- An offset at which a register answers is that register's offset. -/
theorem regOffset_of_regAt (o : Nat) (r : Reg) (h : regAt o = some r) : regOffset r = o := by
  unfold regAt at h
  split at h
  · split at h
    · cases h
      simp only [regOffset]; omega
    · cases h
  · split at h <;> first | (cases h; rfl) | cases h

theorem blockAddr_eq_some (p : Params) (addr a : Nat) (h : blockAddr p addr = some a) :
    addr = p.base + a ∧ a < 0x40000 := by
  unfold blockAddr at h
  split at h
  · have := Option.some.inj h
    have : Config.windowBytes = 0x40000 := rfl
    omega
  · cases h

/-- An address of the window is a register-window offset or a buffer byte's. -/
theorem targetOf_cases (a : Nat) (h : a < 0x40000) :
    (a < 0x10000 ∧ targetOf a = .register a) ∨
    ∃ b o, targetOf a = .buffer b o ∧ a = bufAddr b o ∧ o < 0x10000 := by
  by_cases h1 : a < 0x10000
  · exact .inl ⟨h1, targetOf_register a h1⟩
  · right
    have hb : ∃ b, bufIndex b + 1 = a / 0x10000 := by
      have : a / 0x10000 = 1 ∨ a / 0x10000 = 2 ∨ a / 0x10000 = 3 := by omega
      rcases this with h | h | h
      · exact ⟨.b0, by simp [bufIndex, h]⟩
      · exact ⟨.b1, by simp [bufIndex, h]⟩
      · exact ⟨.b2, by simp [bufIndex, h]⟩
    obtain ⟨b, hb⟩ := hb
    have e : a = bufAddr b (a % 0x10000) := by unfold bufAddr; rw [hb]; omega
    refine ⟨b, a % 0x10000, ?_, e, by omega⟩
    conv_lhs => rw [e]
    exact targetOf_bufAddr b _ (by omega)

theorem bufAddr_lt (b : Buf) (o : Nat) (h : o < 65536) : bufAddr b o < 0x40000 := by
  cases b <;> simp [bufAddr, bufIndex] <;> omega

/-- An aligned 8-byte write to a register that takes writes, BUSY = 0 or the register STATUS. -/
theorem hostAccess_write_reg (s : State) (r : Reg) (v : Word) (hc : r ≠ .config) (hrk : ∀ i, r ≠ .rk i)
    (hb : s.busy = true → r = .status) :
    hostAccess ⟨.write v, 8, s.cfg.base + regOffset r⟩ s =
      .next (respond (some ⟨false, none⟩) (writeReg r v s)) := by
  have ho := regOffset_lt r
  have h8 : regOffset r % 8 = 0 := by cases r <;> simp only [regOffset] <;> omega
  have ht : targetOf (regOffset r) = .register (regOffset r) := targetOf_register _ (by omega)
  have hne : isBusError s ⟨.write v, 8, s.cfg.base + regOffset r⟩ (regOffset r) = false := by
    simp only [isBusError, badWidth, ht, badTarget, allowedWhileBusy, regAt_regOffset, h8]
    cases r <;> simp_all
  simp only [hostAccess, blockAddr_base_add _ _ (show regOffset r < 0x40000 by omega), hne, Bool.false_eq_true, if_false,
    ht, writeTarget, regAt_regOffset]

/-- An aligned 8-byte read of a register, BUSY = 0 or the register STATUS or CONFIG. -/
theorem hostAccess_read_reg (s : State) (r : Reg) (hb : s.busy = true → r = .status ∨ r = .config) :
    hostAccess ⟨.read, 8, s.cfg.base + regOffset r⟩ s =
      match readReg r s with
      | .ok v => .next (respond (some ⟨false, some v⟩) s)
      | .error f => .fault f := by
  have ho := regOffset_lt r
  have h8 : regOffset r % 8 = 0 := by cases r <;> simp only [regOffset] <;> omega
  have ht : targetOf (regOffset r) = .register (regOffset r) := targetOf_register _ (by omega)
  have hne : isBusError s ⟨.read, 8, s.cfg.base + regOffset r⟩ (regOffset r) = false := by
    simp only [isBusError, badWidth, ht, badTarget, allowedWhileBusy, regAt_regOffset, h8]
    cases hbb : s.busy with
    | false => cases r <;> simp
    | true => rcases hb hbb with rfl | rfl <;> simp
  cases h : readReg r s <;>
    simp only [hostAccess, blockAddr_base_add _ _ (show regOffset r < 0x40000 by omega), hne, Bool.false_eq_true,
      if_false, ht, readTarget, regAt_regOffset, h]

/-- A buffer access of a legal width inside the buffer, BUSY = 0, is no bus error. -/
theorem isBusError_buffer (s : State) (k : AccessKind) (w : Nat) (b : Buf) (o : Nat) (hb : s.busy = false)
    (hw : w = 1 ∨ (w = 8 ∧ o % 8 = 0)) (hmax : s.cfg.maxSize ≤ 65536) (ho : o + w ≤ s.cfg.maxSize) :
    isBusError s ⟨k, w, s.cfg.base + bufAddr b o⟩ (bufAddr b o) = false := by
  have ht : targetOf (bufAddr b o) = .buffer b o := targetOf_bufAddr _ _ (by omega)
  have : bufAddr b o % 8 = o % 8 := by unfold bufAddr; omega
  simp only [isBusError, badWidth, ht, badTarget, this, hb, hw]
  simp; omega

theorem hostAccess_read_buffer (s : State) (w : Nat) (b : Buf) (o : Nat) (hb : s.busy = false)
    (hw : w = 1 ∨ (w = 8 ∧ o % 8 = 0)) (hmax : s.cfg.maxSize ≤ 65536) (ho : o + w ≤ s.cfg.maxSize) :
    hostAccess ⟨.read, w, s.cfg.base + bufAddr b o⟩ s =
      match s.bufRead b o w with
      | .ok l => .next (respond (some ⟨false, some (le64 l)⟩) s)
      | .error f => .fault f := by
  have h1 := bufAddr_lt b o (by omega)
  have ht : targetOf (bufAddr b o) = .buffer b o := targetOf_bufAddr _ _ (by omega)
  cases h : s.bufRead b o w <;>
    simp only [hostAccess, blockAddr_base_add _ _ h1, isBusError_buffer s .read w b o hb hw hmax ho, ht, readTarget,
      Bool.false_eq_true, if_false, h]

theorem hostAccess_write_buffer (s : State) (w : Nat) (v : Word) (b : Buf) (o : Nat) (hb : s.busy = false)
    (hw : w = 1 ∨ (w = 8 ∧ o % 8 = 0)) (hmax : s.cfg.maxSize ≤ 65536) (ho : o + w ≤ s.cfg.maxSize) :
    hostAccess ⟨.write v, w, s.cfg.base + bufAddr b o⟩ s =
      .next (respond (some ⟨false, none⟩) (s.bufWrite b o ((bytes64 v).take w))) := by
  have h1 := bufAddr_lt b o (by omega)
  have ht : targetOf (bufAddr b o) = .buffer b o := targetOf_bufAddr _ _ (by omega)
  simp only [hostAccess, blockAddr_base_add _ _ h1, isBusError_buffer s _ w b o hb hw hmax ho, ht, writeTarget]
  simp only [Bool.false_eq_true, if_false]

/-- All that a host access which answers a next state can change, besides the answer: nothing, one register (STATUS only
while BUSY = 1), or bytes inside one buffer while BUSY = 0. -/
theorem hostAccess_next {acc : Access} {s t : State} (h : hostAccess acc s = .next t) :
    ∃ r u, t = respond r u ∧
      (u = s ∨
       (∃ g v, u = writeReg g v s ∧ acc = ⟨.write v, 8, s.cfg.base + regOffset g⟩ ∧ g ≠ .config ∧ (∀ i, g ≠ .rk i) ∧
          (s.busy = true → g = .status)) ∨
       (∃ b o data, u = s.bufWrite b o data ∧ s.busy = false ∧ o < 65536 ∧ o + data.length ≤ s.cfg.maxSize)) := by
  rcases hostAccess_cases acc s with ⟨_, h1⟩ | ⟨a, ha, ⟨_, h1⟩ | ⟨_, _, ⟨v, _, h1⟩ | ⟨f, _, h1⟩⟩ | ⟨hne, v, hk, h1⟩⟩
  · rw [h1] at h; cases h; exact ⟨_, s, rfl, .inl rfl⟩
  · rw [h1] at h; cases h; exact ⟨_, s, rfl, .inl rfl⟩
  · rw [h1] at h; cases h; exact ⟨_, s, rfl, .inl rfl⟩
  · rw [h1] at h; cases h
  · rw [h1] at h; cases h
    refine ⟨_, _, rfl, .inr ?_⟩
    obtain ⟨hA, ha4⟩ := blockAddr_eq_some _ _ _ ha
    simp only [isBusError, Bool.or_eq_false_iff, badWidth, decide_eq_false_iff_not, not_not] at hne
    obtain ⟨⟨hw, hbt⟩, hbu⟩ := hne
    rcases targetOf_cases a ha4 with ⟨hlt, ht⟩ | ⟨b, o, ht, he, ho⟩
    · left
      rw [ht] at hbt hbu
      simp only [badTarget, hk, Bool.or_eq_false_iff, decide_eq_false_iff_not] at hbt
      obtain ⟨hw1, hreg⟩ := hbt
      have hw8 : acc.width = 8 := by
        rcases hw with h | h
        · exact absurd h hw1
        · exact h.1
      cases hg : regAt a with
      | none => rw [hg] at hreg; cases hreg
      | some g =>
        have hoff := regOffset_of_regAt a g hg
        rw [hg] at hreg
        refine ⟨g, v, by simp [ht, writeTarget, hg], ?_, ?_, ?_, ?_⟩
        · cases acc; simp_all
        · rintro rfl; simp at hreg
        · rintro i rfl; simp at hreg
        · intro hb
          simp only [hb, Bool.true_and, Bool.not_eq_false', allowedWhileBusy, hg, hk, Bool.and_eq_true] at hbu
          clear hreg hoff hg hw
          revert hbu; cases g <;> simp
    · right
      rw [ht] at hbt hbu
      simp only [badTarget, decide_eq_false_iff_not] at hbt
      refine ⟨b, o, _, by rw [ht]; rfl, ?_, ho, ?_⟩
      · simp only [allowedWhileBusy, Bool.not_false, Bool.and_true] at hbu; exact hbu
      · simp; omega

/-- All a host access's stop can be: while BUSY = 0, the read of RK[i] before the keys are valid (R47), or a read of one
byte or of an aligned word that takes in an unwritten buffer byte (R57). -/
theorem hostAccess_fault {acc : Access} {s : State} {f : Fault} (h : hostAccess acc s = .fault f) :
    s.busy = false ∧
      ((∃ i, f = .unwrittenRk i ∧ s.ksValid = false ∧ acc = ⟨.read, 8, s.cfg.base + regOffset (.rk i)⟩) ∨
       ∃ b o w q, f = .unwrittenByte b o ∧ s.byteAt b o = none ∧ acc = ⟨.read, w, s.cfg.base + bufAddr b q⟩ ∧
         (w = 1 ∨ (w = 8 ∧ q % 8 = 0)) ∧ q ≤ o ∧ o < q + w ∧ q + w ≤ s.cfg.maxSize) := by
  rcases hostAccess_cases acc s with ⟨_, h1⟩ | ⟨a, ha, ⟨_, h1⟩ | ⟨hne, hk, ⟨v, _, h1⟩ | ⟨g, hg, h1⟩⟩ | ⟨_, _, _, h1⟩⟩
  · rw [h1] at h; cases h
  · rw [h1] at h; cases h
  · rw [h1] at h; cases h
  · rw [h1] at h
    obtain rfl : g = f := by simpa using h
    obtain ⟨hA, ha4⟩ := blockAddr_eq_some _ _ _ ha
    simp only [isBusError, Bool.or_eq_false_iff, badWidth, decide_eq_false_iff_not, not_not] at hne
    obtain ⟨⟨hw, hbt⟩, hbu⟩ := hne
    rcases targetOf_cases a ha4 with ⟨_, ht⟩ | ⟨b, q, ht, he, _⟩
    · rw [ht] at hbt hbu hg
      simp only [badTarget, Bool.or_eq_false_iff, decide_eq_false_iff_not] at hbt
      have hw8 : acc.width = 8 := by
        rcases hw with h | h
        · exact absurd h hbt.1
        · exact h.1
      simp only [readTarget] at hg
      cases hr : regAt a with
      | none => rw [hr] at hg; cases hg
      | some r =>
        have hoff := regOffset_of_regAt a r hr
        rw [hr] at hg
        simp only at hg
        cases r with
        | rk i =>
          have hks : s.ksValid = false ∧ g = .unwrittenRk i := by
            simp only [readReg] at hg
            split at hg
            · cases hg
            · rename_i hv; cases hg; exact ⟨by simpa using hv, rfl⟩
          refine ⟨?_, .inl ⟨i, hks.2, hks.1, ?_⟩⟩
          · simpa [allowedWhileBusy, hr, hw8] using hbu
          · cases acc; simp_all
        | _ => simp [readReg] at hg
    · rw [ht] at hbt hbu hg
      simp only [badTarget, decide_eq_false_iff_not] at hbt
      simp only [readTarget] at hg
      cases hr : s.bufRead b q acc.width with
      | ok l => rw [hr] at hg; cases hg
      | error f' =>
        rw [hr] at hg
        obtain rfl : f' = g := by simpa using hg
        obtain ⟨k, hk', rfl, hn, _⟩ := bufRead_error _ _ _ _ _ hr
        refine ⟨by simpa [allowedWhileBusy] using hbu, .inr ⟨b, q + k, acc.width, q, rfl, hn, ?_, ?_, by omega, by omega,
          by omega⟩⟩
        · cases acc; simp_all
        · have : bufAddr b q % 8 = q % 8 := by unfold bufAddr; omega
          rw [← this, ← he]; exact hw
  · rw [h1] at h; cases h

end Sys2Proof.Machine
end

