-- ==== Sys2Proof/Laws/PerInstr.lean ====
section
/-! SUPPORT. A family stated for every instruction: a command's word matches its row of spec/opcode_table.json
(30_encoding.md R130), by the row's mask and match. -/

namespace Sys2Proof.Laws

/-- The `mask` of an instruction's row of spec/opcode_table.json. -/
def rowMask : Instr → Word
  | .nop => 0xFFFFFFFFFFFFFFFF
  | .keyinit => 0xFFFFFFFFFFFFFFFF
  | .encb => 0xFFFFFFFFFFFFFFFF
  | .decb => 0xFFFFFFFFFFFFFFFF
  | .pad _ _ => 0xFFFFFFFFFFFFFF0F
  | .cbcenc _ _ => 0xFFFFFFFFFFFFFF0F
  | .cbcencInj _ _ => 0xFFFFFFFFFFFFFF0F
  | .cbcdec _ _ => 0xFFFFFFFFFFFFFF0F
  | .unpad _ _ => 0xFFFFFFFFFFFFFF0F

/-- The `match` of an instruction's row of spec/opcode_table.json. -/
def rowMatch : Instr → Word
  | .nop => 0x0
  | .keyinit => 0x1
  | .encb => 0x2
  | .decb => 0x3
  | .pad _ _ => 0x4
  | .cbcenc _ _ => 0x5
  | .cbcencInj _ _ => 0x105
  | .cbcdec _ _ => 0x6
  | .unpad _ _ => 0x7

/-- The word of an instruction matches its own row. -/
def MatchesRow.Statement (i : Instr) : Prop := encode i &&& rowMask i = rowMatch i

theorem MatchesRow.nop : MatchesRow.Statement .nop := by unfold MatchesRow.Statement; decide

theorem MatchesRow.keyinit : MatchesRow.Statement .keyinit := by unfold MatchesRow.Statement; decide

theorem MatchesRow.encb : MatchesRow.Statement .encb := by unfold MatchesRow.Statement; decide

theorem MatchesRow.decb : MatchesRow.Statement .decb := by unfold MatchesRow.Statement; decide

theorem MatchesRow.pad (src dst : BitVec 2) : MatchesRow.Statement (.pad src dst) := by
  unfold MatchesRow.Statement; revert src dst; decide

theorem MatchesRow.cbcenc (src dst : BitVec 2) : MatchesRow.Statement (.cbcenc src dst) := by
  unfold MatchesRow.Statement; revert src dst; decide

theorem MatchesRow.cbcencInj (src dst : BitVec 2) : MatchesRow.Statement (.cbcencInj src dst) := by
  unfold MatchesRow.Statement; revert src dst; decide

theorem MatchesRow.cbcdec (src dst : BitVec 2) : MatchesRow.Statement (.cbcdec src dst) := by
  unfold MatchesRow.Statement; revert src dst; decide

theorem MatchesRow.unpad (src dst : BitVec 2) : MatchesRow.Statement (.unpad src dst) := by
  unfold MatchesRow.Statement; revert src dst; decide

end Sys2Proof.Laws
end

