-- ==== Sys2Proof/Laws/Words.lean ====
section
/-! SUPPORT. Words and their bytes: LE64 and BYTES64 byte by byte and as numbers (spec/00_scope.md R13). -/

namespace Sys2Proof.Machine

/-- Byte `k` of BYTES64. -/
theorem bytes64_getElem (v : Word) (k : Nat) (hk : k < 8) :
    (bytes64 v)[k]'(by simpa using hk) = v.extractLsb' (8 * k) 8 := by
  interval_cases k <;> rfl

/-- Byte `k` of LE64 is byte `k` of the sequence. -/
theorem le64_extract (l : Bytes) (k : Nat) (hk : k < l.length) (h8 : k < 8) :
    (le64 l).extractLsb' (8 * k) 8 = l[k] := by
  induction l generalizing k with
  | nil => simp at hk
  | cons b l ih =>
    cases k with
    | zero =>
      ext j hj
      simp only [le64, BitVec.getElem_extractLsb', BitVec.getLsbD_or, BitVec.getLsbD_setWidth,
        BitVec.getLsbD_shiftLeft]
      simp [hj, show j < 64 by omega]
    | succ k =>
      simp only [List.length_cons] at hk
      rw [List.getElem_cons_succ, ← ih k (by omega) (by omega)]
      ext j hj
      simp only [le64, BitVec.getElem_extractLsb', BitVec.getLsbD_or, BitVec.getLsbD_setWidth,
        BitVec.getLsbD_shiftLeft]
      have h1 : b.getLsbD (8 * (k + 1) + j) = false := BitVec.getLsbD_of_ge _ _ (by omega)
      have h2 : 8 * (k + 1) + j < 64 := by omega
      have h3 : ¬ (8 * (k + 1) + j < 8) := by omega
      have h4 : 8 * (k + 1) + j - 8 = 8 * k + j := by omega
      simp [h1, h2, h3, h4]

/-- LE64 of a byte and a rest, as a number. -/
theorem le64_cons_toNat (b : Byte) (l : Bytes) (h : (le64 l).toNat < 256 ^ 7) :
    (le64 (b :: l)).toNat = b.toNat + 256 * (le64 l).toNat := by
  have hb := b.isLt
  have hd : b.setWidth 64 ||| (le64 l <<< 8) = b.setWidth 64 + (le64 l <<< 8) := by
    rw [BitVec.add_eq_or_of_and_eq_zero]
    ext i hi
    simp only [BitVec.getElem_and, BitVec.getElem_setWidth, BitVec.getElem_shiftLeft]
    by_cases h : i < 8
    · simp [h]
    · simp [BitVec.getLsbD_of_ge b i (by omega)]
  rw [le64, hd, BitVec.toNat_add, BitVec.toNat_shiftLeft, BitVec.toNat_setWidth, Nat.shiftLeft_eq]
  omega

/-- LE64 of at most eight bytes lies below the power of 256 its length says. -/
theorem le64_toNat_lt (l : Bytes) (h : l.length ≤ 8) : (le64 l).toNat < 256 ^ l.length := by
  induction l with
  | nil => simp [le64]
  | cons b l ih =>
    simp only [List.length_cons] at h ⊢
    have h2 := ih (by omega)
    have hl : 256 ^ l.length ≤ 256 ^ 7 := Nat.pow_le_pow_right (by omega) (by omega)
    rw [le64_cons_toNat b l (by omega), Nat.pow_succ]
    have := b.isLt
    omega

/-- ROR is rotation to the right (R11). -/
theorem ror_eq_rotateRight (v : Word) (r : Nat) (h : r < 64) : ror v r = v.rotateRight r := by
  rw [ror, BitVec.rotateRight_def, Nat.mod_eq_of_lt h]

/-- ROL is rotation to the left (R11). -/
theorem rol_eq_rotateLeft (v : Word) (r : Nat) (h : r < 64) : rol v r = v.rotateLeft r := by
  rw [rol, BitVec.rotateLeft_def, Nat.mod_eq_of_lt h]

end Sys2Proof.Machine
end

