-- ==== Sys2Proof/Tests/Slice0.lean ====
section
/-! SUPPORT. The model's own tests: well-formedness, decoding, one step of each instruction against the vectors of
spec/95_test_vectors.md, and for every obligation with hypotheses a concrete state and operands that meet them. -/

namespace Sys2Proof.Tests

open Sys2Proof Sys2Proof.Machine Sys2Proof.Claims

/-! ### Helpers -/

/-- The next state, none where the step stops. -/
def nextOf : Host.Outcome State Fault Refusal → Option State
  | .next s => some s
  | .fault _ => none
  | .refused _ => none

/-- The fault, none where the step does not fault. -/
def faultOf : Host.Outcome State Fault Refusal → Option Fault
  | .next _ => none
  | .fault f => some f
  | .refused _ => none

theorem exists_next {o : Host.Outcome State Fault Refusal} {α : Type} {f : State → α} {x : α}
    (h : (nextOf o).map f = some x) : ∃ t, o = .next t ∧ f t = x := by
  cases o with
  | next t => exact ⟨t, rfl, by simpa [nextOf] using h⟩
  | fault r => simp [nextOf] at h
  | refused r => simp [nextOf] at h

theorem eq_fault {o : Host.Outcome State Fault Refusal} {f : Fault} (h : faultOf o = some f) : o = .fault f := by
  cases o with
  | next t => simp [faultOf] at h
  | fault r => rw [Option.some.inj h]
  | refused r => simp [faultOf] at h

/-- The reset state with the given events to come. -/
def idle (l : List Event) : State := { State.reset with inputs := l }

/-- The reset state with a command pending and the given events to come. -/
def busy (i : Instr) (l : List Event) : State := acceptIssue i (idle l)

/-- `s` with a message in a buffer and its length set. -/
def load (b : Buf) (data : Bytes) (s : State) : State := (s.bufWrite b 0 data).setLen b (BitVec.ofNat 64 data.length)

theorem load_holds (b : Buf) (data : Bytes) (s : State) (h : data.length ≤ 65536) : (load b data s).Holds b data := by
  refine ⟨?_, fun k hk => ?_⟩
  · rw [load, setLen_len_self]; simp; omega
  · have := byteAt_bufWrite_inside s b 0 data k hk
    rw [Nat.zero_add] at this
    rw [← this]; simp [load, State.byteAt]

/-- The first `n` bytes of a buffer. -/
def bytesOf (b : Buf) (n : Nat) (s : State) : Option Bytes :=
  match s.bufRead b 0 n with
  | .ok l => some l
  | .error _ => none

/-- A buffer as its length register says, with that length. -/
def contents (b : Buf) (s : State) : Nat × Option Bytes := ((s.len b).toNat, bytesOf b (s.len b).toNat s)

/-- A state with key, block registers or flags of its own. -/
def blk (x y : Word) : State := { State.reset with blkX := x, blkY := y }

/-- "hello" padded, as vector PD3 has it. -/
def helloPadded : Bytes :=
  [0x68, 0x65, 0x6C, 0x6C, 0x6F, 0x0B, 0x0B, 0x0B, 0x0B, 0x0B, 0x0B, 0x0B, 0x0B, 0x0B, 0x0B, 0x0B]

/-- The ciphertext block of vector CE1. -/
def helloCipher : Bytes :=
  [0x70, 0x65, 0xA2, 0x43, 0x62, 0x8A, 0x8C, 0x83, 0x56, 0xC9, 0x39, 0x8F, 0xB6, 0x46, 0x6F, 0x03]

/-- The sixteen bytes F0 F1 … FF. -/
def ivF0 : Bytes :=
  [0xF0, 0xF1, 0xF2, 0xF3, 0xF4, 0xF5, 0xF6, 0xF7, 0xF8, 0xF9, 0xFA, 0xFB, 0xFC, 0xFD, 0xFE, 0xFF]

/-- The state of vector CE1: "hello" padded in BUF1 and the injected IV F0..FF. -/
def ce1 : State :=
  { load .b1 helloPadded State.reset with ivLo := 0xF7F6F5F4F3F2F1F0, ivHi := 0xFFFEFDFCFBFAF9F8 }

/-! ### Well-formedness: an ill-formed term for each check -/

theorem test_pad_needs_buffers : ¬ (Instr.pad 3 0).WellFormed ∧ ¬ (Instr.pad 0 3).WellFormed := by decide
theorem test_cbcenc_needs_buffers : ¬ (Instr.cbcenc 3 0).WellFormed ∧ ¬ (Instr.cbcenc 0 3).WellFormed := by decide
theorem test_cbcencInj_needs_buffers : ¬ (Instr.cbcencInj 3 0).WellFormed ∧ ¬ (Instr.cbcencInj 0 3).WellFormed := by
  decide
theorem test_cbcdec_needs_buffers : ¬ (Instr.cbcdec 3 0).WellFormed ∧ ¬ (Instr.cbcdec 0 3).WellFormed := by decide
theorem test_unpad_needs_buffers : ¬ (Instr.unpad 3 0).WellFormed ∧ ¬ (Instr.unpad 0 3).WellFormed := by decide
theorem test_wellFormed_accepts : Instr.nop.WellFormed ∧ Instr.keyinit.WellFormed ∧ Instr.encb.WellFormed ∧
    Instr.decb.WellFormed ∧ (Instr.pad 2 1).WellFormed := by decide

/-! ### Decoding: each word written out as RSVD[63:9] IVSEL DST SRC OP from 30_encoding.md R121 and R130 -/

theorem test_decode_nop : decode (0#55 ++ 0#1 ++ 0#2 ++ 0#2 ++ 0x0#4) = .ok .nop := by decide
theorem test_decode_keyinit : decode (0#55 ++ 0#1 ++ 0#2 ++ 0#2 ++ 0x1#4) = .ok .keyinit := by decide
theorem test_decode_encb : decode (0#55 ++ 0#1 ++ 0#2 ++ 0#2 ++ 0x2#4) = .ok .encb := by decide
theorem test_decode_decb : decode (0#55 ++ 0#1 ++ 0#2 ++ 0#2 ++ 0x3#4) = .ok .decb := by decide
/-- `PAD B0, B1` is 0x44 (R130). -/
theorem test_decode_pad : decode 0x0000000000000044 = .ok (.pad 0 1) := by decide
/-- `CBCENC B1, B2` is 0x95 (R130). -/
theorem test_decode_cbcenc : decode 0x0000000000000095 = .ok (.cbcenc 1 2) := by decide
/-- `CBCENC.INJ B1, B2` is 0x195 (R130). -/
theorem test_decode_cbcencInj : decode 0x0000000000000195 = .ok (.cbcencInj 1 2) := by decide
/-- `CBCDEC B2, B0` is 0x26 (R130). -/
theorem test_decode_cbcdec : decode 0x0000000000000026 = .ok (.cbcdec 2 0) := by decide
/-- `UNPAD B1, B0`: OP 7, SRC 1, DST 0. -/
theorem test_decode_unpad : decode (0#55 ++ 0#1 ++ 0b00#2 ++ 0b01#2 ++ 0x7#4) = .ok (.unpad 1 0) := by decide
/-- Vectors IC2 to IC8: reserved words. -/
theorem test_decode_reserved : decode 0x8 = .error .illegalCmd ∧ decode 0xF = .error .illegalCmd ∧
    decode 0x10 = .error .illegalCmd ∧ decode 0x102 = .error .illegalCmd ∧ decode 0x204 = .error .illegalCmd ∧
    decode 0x8000000000000005 = .error .illegalCmd ∧ decode 0x104 = .error .illegalCmd := by decide
/-- Vectors IC9 to IC12: the order of the checks. -/
theorem test_decode_order : decode 0x34 = .error .badBuf ∧ decode 0xC7 = .error .badBuf ∧
    decode 0x134 = .error .illegalCmd ∧ decode 0xF5 = .error .badBuf := by decide

/-! ### One step of each instruction -/

/-- R160's example: STATUS = 0x0, then NOP, gives STATUS = 0x2. -/
theorem test_nop_status : (nextOf (step (busy .nop []))).map statusWord = some 0x2 := by decide
/-- Vector KS1: STATUS = 0xA and the round keys. -/
theorem test_keyinit_vector : (nextOf (exec .keyinit State.reset)).map (fun t => (statusWord t, t.rk[0], t.rk[16], t.rk[31])) =
    some (0xA, 0x0706050403020100, 0x771EBFFCBF05CB13, 0x2199C870DB8EC93F) := by decide +kernel
/-- Vector KS2: the zero key. -/
theorem test_keyinit_zero_key :
    (nextOf (exec .keyinit (State.resetWith ⟨Vector.replicate 16 0, 256, 0⟩))).map (fun t => (t.rk[3], t.rk[31])) =
    some (0x010000000000000B, 0xF83706BB7A19C59D) := by decide +kernel
/-- Vector EB1. -/
theorem test_encb_vector : (nextOf (exec .encb (blk 0 0))).map (fun t => (t.blkX, t.blkY)) =
    some (0x30D6A63D14EADEC5, 0x06BB2D75B7AEF13D) := by decide +kernel
/-- Vector EB5. -/
theorem test_encb_mixed : (nextOf (exec .encb (blk 0x0123456789ABCDEF 0xFEDCBA9876543210))).map
    (fun t => (t.blkX, t.blkY)) = some (0x6B3C814BFF26864F, 0xE72DE116E4FA4CB4) := by decide +kernel
/-- Vector EB7: DECB of (0, 0). -/
theorem test_decb_vector : (nextOf (exec .decb (blk 0 0))).map (fun t => (t.blkX, t.blkY)) =
    some (0x63FE6FCB05CA317D, 0xD52482A8070689DD) := by decide +kernel
/-- Vectors ER1 and ER4: the wrap of the addition, and the XOR with the new x. -/
theorem test_encRound_corners : encRound ⟨0xFFFFFFFFFFFFFFFF, 0xFFFFFFFFFFFFFFFF⟩ 0 = ⟨0xFFFFFFFFFFFFFFFE, 1⟩ ∧
    encRound ⟨0, 1⟩ 0 = ⟨1, 9⟩ := by decide
/-- Vector PD3. -/
theorem test_pad_hello : (nextOf (exec (.pad 0 1) (load .b0 [0x68, 0x65, 0x6C, 0x6C, 0x6F] State.reset))).map
    (fun t => (contents .b1 t, statusWord t)) = some ((16, some helloPadded), 0x2) := by decide +kernel
/-- Vector PD5: no block is appended to a multiple of 16. -/
theorem test_pad_boundary : (nextOf (exec (.pad 1 1) (load .b1 ivF0 State.reset))).map (contents .b1) =
    some (16, some ivF0) := by decide +kernel
/-- Vector CE1. -/
theorem test_cbcencInj_hello : (nextOf (exec (.cbcencInj 1 2) ce1)).map
    (fun t => (contents .b2 t, t.cv, statusWord t, t.draws)) =
    some ((32, some (ivF0 ++ helloCipher)), ⟨0x838C8A6243A26570, 0x036F46B68F39C956⟩, 0xA, 0) := by decide +kernel
/-- Vector CE2: the empty message gives the IV alone. -/
theorem test_cbcencInj_empty : (nextOf (exec (.cbcencInj 0 2) ce1)).map (contents .b2) =
    some (16, some ivF0) := by decide +kernel
/-- "The drawn IV" of section 2.5: with the draw 00 01 … 0F. -/
theorem test_cbcenc_drawn_iv (h : Config.drawnIv 0 = 0x0F0E0D0C0B0A09080706050403020100) :
    drawnIvBytes 0 = [0, 1, 2, 3, 4, 5, 6, 7, 8, 9, 10, 11, 12, 13, 14, 15] ∧
    (cbcEnc (keySchedule Params.reference.key) helloPadded
      [0, 1, 2, 3, 4, 5, 6, 7, 8, 9, 10, 11, 12, 13, 14, 15]).1.drop 16 =
      [0x80, 0x14, 0x22, 0x31, 0xD6, 0x41, 0xBE, 0x29, 0x45, 0x61, 0x4E, 0xDE, 0xFF, 0xC4, 0xC7, 0x49] := by
  refine ⟨?_, by decide +kernel⟩
  unfold drawnIvBytes
  rw [h]
  decide +kernel
/-- R230, R231: one draw, and LEN[DST] = n + 16. -/
theorem test_cbcenc_draws : (nextOf (exec (.cbcenc 1 2) ce1)).map (fun t => (t.draws, t.len2, t.ksValid)) =
    some (1, 32, true) := by decide +kernel
/-- Vector CD1. -/
theorem test_cbcdec_hello : (nextOf (exec (.cbcdec 2 0) (load .b2 (ivF0 ++ helloCipher) State.reset))).map
    (fun t => (contents .b0 t, statusWord t)) = some ((16, some helloPadded), 0xA) := by decide +kernel
/-- Vector CD6: one changed ciphertext byte, in place, with the stale tail of R314. -/
theorem test_cbcdec_tampered :
    (nextOf (exec (.cbcdec 2 2) (load .b2 (ivF0 ++ helloCipher.set 0 0x71) State.reset))).map
      (fun t => (contents .b2 t, (bytesOf .b2 32 t).map (List.drop 31))) =
    some ((16, some [0x14, 0xEF, 0xD7, 0x4D, 0xAA, 0x3A, 0x71, 0x79, 0x13, 0xAA, 0xB3, 0x16, 0xEC, 0x5C, 0x64, 0x18]),
      some [0x03]) := by decide +kernel
/-- Vector UP1. -/
theorem test_unpad_hello : (nextOf (exec (.unpad 0 0) (load .b0 helloPadded State.reset))).map
    (fun t => (contents .b0 t, t.padErr)) = some ((5, some [0x68, 0x65, 0x6C, 0x6C, 0x6F]), false) := by decide +kernel
/-- Vectors UP10 and UP4: a claim longer than the message, and a claim of 16. -/
theorem test_unpad_claims : (nextOf (exec (.unpad 0 1) (load .b0 [0x02] State.reset))).map
      (fun t => (contents .b1 t, t.padErr)) = some ((1, some [0x02]), true) ∧
    (nextOf (exec (.unpad 0 1) (load .b0 [1, 2, 3, 4, 5, 6, 7, 8, 9, 10, 11, 12, 13, 14, 15, 16] State.reset))).map
      (fun t => (t.len1, t.padErr)) = some (0, false) := by decide +kernel

/-! ### The interface -/

/-- Vector BE4. -/
theorem test_config_word : configWord Params.reference = 0x0000010001104020 := by decide
/-- Vectors IC2, IC9, IC15: STATUS after a rejected issue. -/
theorem test_rejected_status : statusWord (issue 0x8 State.reset) = 0x106 ∧ statusWord (issue 0x34 State.reset) = 0x206 ∧
    statusWord (issue 0x6 { State.reset with len0 := 15 }) = 0x306 := by decide
/-- Vectors SW2, SW4, SW6 from STATUS = 0x11E. -/
theorem test_status_writes :
    let s := { State.reset with done := true, err := true, ksValid := true, padErr := true, errCode := 1 }
    statusWord s = 0x11E ∧ statusWord (writeStatus 0x4 s) = 0x01A ∧ statusWord (writeStatus 0x16 s) = 0x008 ∧
    statusWord (writeStatus 0x9 s) = 0x11E := by decide
/-- Vectors BE1, BE5, BE7, BE9 to BE12: bus errors. -/
theorem test_bus_errors : isBusError (busy .nop []) ⟨.write 2, 8, 0x8⟩ 0x8 = true ∧
    isBusError (idle []) ⟨.write 0, 8, 0x0⟩ 0x0 = true ∧ isBusError (idle []) ⟨.read, 8, 0x50⟩ 0x50 = true ∧
    isBusError (idle []) ⟨.read, 1, 0x10⟩ 0x10 = true ∧ isBusError (idle []) ⟨.read, 8, 0x10004⟩ 0x10004 = true ∧
    isBusError (idle []) ⟨.read, 4, 0x10000⟩ 0x10000 = true ∧ isBusError (idle []) ⟨.read, 1, 0x10100⟩ 0x10100 = true := by
  decide
/-- Vectors BE3, BE13, BE14: allowed accesses. -/
theorem test_bus_allowed : isBusError (busy .nop []) ⟨.read, 8, 0x10⟩ 0x10 = false ∧
    isBusError (idle []) ⟨.read, 8, 0x100F8⟩ 0x100F8 = false ∧ isBusError (idle []) ⟨.read, 8, 0x8⟩ 0x8 = false := by decide
/-- Vectors BE15 and BE16: the model's faults. -/
theorem test_unwritten_faults : faultOf (step (idle [.host ⟨.read, 1, 0x20000⟩])) = some (.unwrittenByte .b1 0) ∧
    faultOf (step (idle [.host ⟨.read, 8, 0x100⟩])) = some (.unwrittenRk 0) := by decide
/-- Reset's memory has the canonical form. -/
theorem test_reset_memory : Memory.wf State.reset.mem = true := by decide
/-- A placed word runs as the first instruction after reset: STATUS after KEYINIT. -/
theorem test_placed_word : (nextOf (step (State.reset.withFetchWord 64 0x1))).map statusWord = some 0xA := by
  decide +kernel

/-! ### Witnesses: a concrete state and operands that meet the hypotheses of each obligation -/

theorem witness_DecodeOfEncodeIsTheCommand : (Instr.cbcencInj 2 2).WellFormed ∧ Instr.nop.WellFormed := by decide

theorem witness_ExactlyFortyNineWordsDecode : decode 0x1A5 = .ok (.cbcencInj 2 2) := by decide

theorem witness_ReservedWordsAreIllegal : ReservedWord 0x8 ∧ ReservedWord 0x200 ∧ ReservedWord 0x13 ∧ ReservedWord 0x107 ∧
    ¬ ReservedWord 0x1F5 ∧ ¬ ReservedWord 0x7 := by unfold ReservedWord; decide

/-- Each clause at a boundary: a reserved word; SRC = 3 and DST = 3; lengths one step outside each bound; and the largest
and smallest lengths the bounds admit. -/
theorem witness_IssueCheckGivesTheFirstFailingCheck :
    ReservedWord 0x134 ∧
    (¬ ReservedWord 0x34 ∧ 4 ≤ opOf 0x34 ∧ srcOf 0x34 = 3) ∧ (¬ ReservedWord 0x1C5 ∧ 4 ≤ opOf 0x1C5 ∧ dstOf 0x1C5 = 3) ∧
    (¬ ReservedWord 0x4 ∧ 4 ≤ opOf 0x4 ∧ srcOf 0x4 ≠ 3 ∧ dstOf 0x4 ≠ 3) ∧
    ¬ LenBound 4 257 256 ∧ ¬ LenBound 5 256 256 ∧ ¬ LenBound 5 5 256 ∧ ¬ LenBound 6 0 256 ∧ ¬ LenBound 6 272 256 ∧
    ¬ LenBound 7 0 256 ∧ ¬ LenBound 7 257 256 ∧
    LenBound 4 256 256 ∧ LenBound 5 240 256 ∧ LenBound 5 0 256 ∧ LenBound 6 16 256 ∧ LenBound 7 1 256 ∧
    (¬ ReservedWord 0x3 ∧ opOf 0x3 < 4) ∧ lenNumber (load .b2 helloPadded State.reset) 2 = 16 := by
  and_intros <;> first | decide +kernel | (unfold ReservedWord; decide) | (unfold LenBound; decide)

theorem witness_RejectedIssueWritesOnlyErrorFlags :
    let e (v : Word) : State := idle [.host (writeAt State.reset 0x8 v)]
    (∀ v, (e v).busy = false ∧ (e v).inputs = [.host (writeAt (e v) 0x8 v)]) ∧
    check 0x8 (e 0x8) = .error .illegalCmd ∧ check 0x34 (e 0x34) = .error .badBuf ∧
    check 0x6 (e 0x6) = .error .badLen := by
  exact ⟨fun _ => ⟨rfl, rfl⟩, by decide, by decide, by decide⟩

theorem witness_AcceptedIssueRecordsTheCommand :
    let s : State := idle [.host (writeAt State.reset 0x8 0x85)]
    s.busy = false ∧ s.inputs = [.host (writeAt s 0x8 0x85)] ∧ check 0x85 s = .ok (.cbcenc 0 2) := by decide

/-- The four clauses: a STATUS read, a CONFIG read, a STATUS write, and a CMD write. -/
theorem witness_BusyBlockAnswersOnlyStatusAndConfig :
    let b (acc : Access) : State := busy .encb [.host acc]
    (∀ acc, (b acc).busy = true ∧ (b acc).inputs = [.host acc]) ∧
    (∀ a : Nat, a < 0x40000 → (b (readAt State.reset a)).cfg.base ≤ (readAt State.reset a).addr ∧
      (readAt State.reset a).addr < (b (readAt State.reset a)).cfg.base + 0x40000) ∧
    readAt State.reset 0x10 = readAt (b (readAt State.reset 0x10)) 0x10 ∧
    readAt State.reset 0x0 = readAt (b (readAt State.reset 0x0)) 0x0 ∧
    writeAt State.reset 0x10 0x16 = writeAt (b (writeAt State.reset 0x10 0x16)) 0x10 0x16 ∧
    (writeAt State.reset 0x8 0x2 ≠ readAt State.reset 0x10 ∧ writeAt State.reset 0x8 0x2 ≠ readAt State.reset 0x0 ∧
      ∀ v, writeAt State.reset 0x8 0x2 ≠ writeAt State.reset 0x10 v) := by
  refine ⟨fun _ => ⟨rfl, rfl⟩, fun a h => ⟨Nat.zero_le _, ?_⟩, rfl, rfl, rfl, by decide, by decide, fun v h => ?_⟩
  · show 0 + a < 0 + 0x40000
    omega
  · have h8 : (8 : Nat) = 16 := congrArg Access.addr h
    exact absurd h8 (by decide)

/-- The conditions (a) to (f) in turn at boundary addresses, and accesses under none of them. -/
theorem witness_BusErrorExactlyUnderItsConditions :
    BusErrorCondition (idle []) ⟨.read, 2, 0x10000⟩ ∧ BusErrorCondition (idle []) ⟨.read, 8, 0x10004⟩ ∧
    BusErrorCondition (idle []) ⟨.read, 1, 0xFFFF⟩ ∧
    BusErrorCondition (idle []) ⟨.read, 8, 0x50⟩ ∧ BusErrorCondition (idle []) ⟨.read, 8, 0xFFF8⟩ ∧
    BusErrorCondition (idle []) ⟨.write 0, 8, 0x0⟩ ∧ BusErrorCondition (idle []) ⟨.write 0, 8, 0x1F8⟩ ∧
    BusErrorCondition (idle []) ⟨.read, 1, 0x30100⟩ ∧ BusErrorCondition (busy .nop []) ⟨.write 0, 8, 0x8⟩ ∧
    ¬ BusErrorCondition (idle []) ⟨.read, 8, 0x48⟩ ∧ ¬ BusErrorCondition (idle []) ⟨.write 0, 1, 0x300FF⟩ ∧
    ¬ BusErrorCondition (busy .nop []) ⟨.write 0, 8, 0x10⟩ := by
  and_intros <;> (simp only [BusErrorCondition]; decide)

theorem witness_StatusReadsAsItsLayout :
    let s : State := busy .nop [.host (readAt State.reset 0x10)]
    s.inputs = [.host (readAt s 0x10)] := by decide

/-- A write with bits 1, 2 and 4 set, and one with none of them. -/
theorem witness_StatusWriteClearsSelectedFlags :
    let s (v : Word) : State := idle [.host (writeAt State.reset 0x10 v)]
    (s 0x16).inputs = [.host (writeAt (s 0x16) 0x10 0x16)] ∧ (0x16 : Word).getLsbD 1 = true ∧
    (0x16 : Word).getLsbD 2 = true ∧ (0x16 : Word).getLsbD 4 = true ∧ (0x9 : Word).getLsbD 1 = false ∧
    (0x9 : Word).getLsbD 2 = false ∧ (0x9 : Word).getLsbD 4 = false := by decide

theorem witness_ConfigReadsItsConstantFields :
    let r : State := idle [.host (readAt State.reset 0x0)]
    let w : State := idle [.host (writeAt State.reset 0x0 1)]
    r.cfg.wf ∧ r.inputs = [.host (readAt r 0x0)] ∧ w.cfg.wf ∧ w.inputs = [.host (writeAt w 0x0 1)] := by decide

/-- The first and the last register of the list. -/
theorem witness_WrittenRegisterReadsBack :
    let s (o : Nat) : State := idle [.host (writeAt State.reset o 7), .host (readAt State.reset o)]
    (s 0x18).busy = false ∧ (s 0x18).inputs = [.host (writeAt (s 0x18) 0x18 7), .host (readAt (s 0x18) 0x18)] ∧
    (s 0x48).busy = false ∧ (s 0x48).inputs = [.host (writeAt (s 0x48) 0x48 7), .host (readAt (s 0x48) 0x48)] := by decide

/-- CMD, with ERR set by a rejected issue, and the last register of the list. -/
theorem witness_RegisterReadsReturnTheRegister :
    let s (o : Nat) : State := { rejectIssue .badLen (idle [.host (readAt State.reset o)]) with len2 := 7 }
    ((s 0x8).busy = false ∧ (s 0x8).inputs = [.host (readAt (s 0x8) 0x8)]) ∧
    (s 0x48).busy = false ∧ (s 0x48).inputs = [.host (readAt (s 0x48) 0x48)] ∧ (s 0x48).len .b2 = 7 := by decide

/-- The last byte of BUF2, read and written. -/
theorem witness_ByteAccessMovesOneByte :
    let m : State := (idle []).bufWrite .b2 255 [0xA5]
    let r : State := { m with inputs := [.host ⟨.read, 1, m.cfg.base + bufAddr .b2 255⟩] }
    let w : State := { m with inputs := [.host ⟨.write 0x1FF, 1, m.cfg.base + bufAddr .b2 255⟩] }
    r.busy = false ∧ r.cfg.wf ∧ 255 < r.cfg.maxSize ∧ r.byteAt .b2 255 = some 0xA5 ∧
    r.inputs = [.host ⟨.read, 1, r.cfg.base + bufAddr .b2 255⟩] ∧
    w.inputs = [.host ⟨.write 0x1FF, 1, w.cfg.base + bufAddr .b2 255⟩] := by decide

/-- The last word of BUF0, read and written. -/
theorem witness_WordAccessMovesEightBytesLittleEndian :
    let m : State := (idle []).bufWrite .b0 248 [1, 2, 3, 4, 5, 6, 7, 8]
    let r : State := { m with inputs := [.host (readAt m (bufAddr .b0 248))] }
    let w : State := { m with inputs := [.host (writeAt m (bufAddr .b0 248) 9)] }
    r.busy = false ∧ r.cfg.wf ∧ 248 % 8 = 0 ∧ 248 + 8 ≤ r.cfg.maxSize ∧
    (∀ k < 8, r.byteAt .b0 (248 + k) = some (BitVec.ofNat 8 (k + 1))) ∧
    r.inputs = [.host (readAt r (bufAddr .b0 248))] ∧ w.inputs = [.host (writeAt w (bufAddr .b0 248) 9)] := by
  decide +kernel

theorem witness_ByteViewIsPartOfWordView :
    let s : State := (idle []).bufWrite .b0 248 [1, 2, 3, 4, 5, 6, 7, 8]
    s.cfg.wf ∧ 255 < s.cfg.maxSize ∧
    ∃ t, step { s with inputs := .host (readAt s (bufAddr .b0 (255 - 255 % 8))) :: [] } = .next t ∧
      t.resp = some ⟨false, some 0x0807060504030201⟩ :=
  ⟨by decide, by decide, exists_next (f := fun t => t.resp) (by decide +kernel)⟩

theorem witness_ReadsChangeNothing :
    let s : State := idle [.host (readAt State.reset 0x8)]
    s.inputs = [.host (readAt State.reset 0x8)] ∧ (readAt State.reset 0x8).kind = .read ∧
    ∃ t, step s = .next t ∧ t.resp = some ⟨false, some 0⟩ :=
  ⟨by decide, by decide, exists_next (f := fun t => t.resp) (by decide)⟩

/-- RK[31] with KS_VALID = 0 and with KS_VALID = 1. -/
theorem witness_RoundKeyReadNeedsValidKeys :
    let s : State := idle [.host (readAt State.reset 0x1F8)]
    s.busy = false ∧ s.inputs = [.host (readAt s (0x100 + 8 * (31 : Fin 32).val))] ∧ s.ksValid = false ∧
    (ensureKs s).busy = false ∧ (ensureKs s).inputs = [.host (readAt (ensureKs s) (0x100 + 8 * (31 : Fin 32).val))] ∧
    (ensureKs s).ksValid = true := by decide

/-- The host's read of the last byte of BUF1, its read of the last word of BUF2 with the last byte unwritten, and PAD of two
bytes of which the second is unwritten. -/
theorem witness_UnwrittenBytesFault :
    (let s : State := idle [.host ⟨.read, 1, State.reset.cfg.base + bufAddr .b1 255⟩]
     s.busy = false ∧ s.cfg.wf ∧ 255 < s.cfg.maxSize ∧ s.byteAt .b1 255 = none ∧
     s.inputs = [.host ⟨.read, 1, s.cfg.base + bufAddr .b1 255⟩]) ∧
    (let s : State := (idle [.host (readAt State.reset (bufAddr .b2 248))]).bufWrite .b2 248 [1, 2, 3, 4, 5, 6, 7]
     s.busy = false ∧ s.cfg.wf ∧ 248 % 8 = 0 ∧ 248 + 8 ≤ s.cfg.maxSize ∧ 7 < 8 ∧ s.byteAt .b2 (248 + 7) = none ∧
     s.inputs = [.host (readAt s (bufAddr .b2 248))]) ∧
    (let s : State := { load .b0 [1] State.reset with len0 := 2 }
     (Instr.pad 0 1).WellFormed ∧ lenOk (.pad 0 1) s = true ∧ sourceField (.pad 0 1) = some 0 ∧ bufOf 0 = some .b0 ∧
     1 < (s.len .b0).toNat ∧ s.byteAt .b0 1 = none) := by decide

/-- The first address above the window and the last below it. -/
theorem witness_AddressOutsideTheWindowHasNoEffect :
    let s : State := idle [.host ⟨.read, 8, 0x40000⟩]
    let u : State := { State.resetWith ⟨Params.reference.key, 256, 0x40000⟩ with inputs := [.host ⟨.read, 1, 0x3FFFF⟩] }
    s.inputs = [.host ⟨.read, 8, 0x40000⟩] ∧ s.cfg.base + 0x40000 ≤ 0x40000 ∧
    u.inputs = [.host ⟨.read, 1, 0x3FFFF⟩] ∧ 0x3FFFF < u.cfg.base := by decide

/-- An engine's turn with NOP pending after KEYINIT, and the host's read of RK[31]. -/
theorem witness_ValidRoundKeysAreImmutable :
    (let s : State := ensureKs (busy .nop [])
     s.ksValid = true ∧ ¬ ResetNow s ∧ ∃ t, step s = .next t ∧ t.ksValid = true) ∧
    (let s : State := ensureKs (idle [.host (readAt State.reset 0x1F8)])
     s.Inv ∧ s.busy = false ∧ s.ksValid = true ∧ s.inputs = [.host (readAt s (0x100 + 8 * (31 : Fin 32).val))] ∧
     ∃ t, step s = .next t ∧ t.resp = some ⟨false, some 0x2199C870DB8EC93F⟩) := by
  refine ⟨⟨by decide, ?_, exists_next (f := fun t => t.ksValid) (by decide +kernel)⟩, by decide +kernel, by decide,
    by decide, by decide, exists_next (f := fun t => t.resp) (by decide +kernel)⟩
  rintro ⟨rest, h⟩
  cases h

/-- PAD, which uses no key, and CBCENC.INJ, which does, with KS_VALID = 0. -/
theorem witness_OnlyCipherCommandsRunTheKeySchedule :
    ((Instr.pad 1 2).WellFormed ∧ lenOk (.pad 1 2) ce1 = true ∧ ¬ UsesKeys (.pad 1 2) ∧
      ∃ t, exec (.pad 1 2) ce1 = .next t ∧ t.ksValid = false) ∧
    ((Instr.cbcencInj 1 2).WellFormed ∧ lenOk (.cbcencInj 1 2) ce1 = true ∧ UsesKeys (.cbcencInj 1 2) ∧
      ce1.ksValid = false ∧ ∃ t, exec (.cbcencInj 1 2) ce1 = .next t ∧ t.ksValid = true) :=
  ⟨⟨by decide, by decide +kernel, id, exists_next (f := fun t => t.ksValid) (by decide +kernel)⟩,
   by decide, by decide +kernel, trivial, by decide, exists_next (f := fun t => t.ksValid) (by decide +kernel)⟩

theorem witness_BlockAndUnblockAreInverse : helloPadded.length = 16 := by decide

theorem witness_DecBytesUndoesEncBytes : ivF0.length = 16 := by decide

/-- Lengths 5 (padding is appended, so there is a byte to fill) and 16 (none is). -/
theorem witness_PadFillsToTheNextMultipleOfSixteen : 5 % 16 ≠ 0 ∧ 5 < (padBytes [1, 2, 3, 4, 5]).length ∧
    ivF0.length % 16 = 0 := by decide

/-- The empty message and a full buffer. -/
theorem witness_PadStoresThePaddedMessage :
    State.reset.cfg.wf ∧ bufOf 2 = some .b2 ∧ bufOf 0 = some .b0 ∧
    (load .b2 [] State.reset).Holds .b2 [] ∧ ([] : Bytes).length ≤ (load .b2 [] State.reset).cfg.maxSize ∧
    (load .b0 (List.replicate 256 0) State.reset).Holds .b0 (List.replicate 256 0) ∧
    (List.replicate 256 (0 : Byte)).length ≤ (load .b0 (List.replicate 256 0) State.reset).cfg.maxSize :=
  ⟨by decide, by decide, by decide, load_holds _ _ _ (by decide), by decide, load_holds _ _ _ (by rw [List.length_replicate]; omega),
    by rw [List.length_replicate]; decide⟩

/-- The empty message and the longest one, 240 bytes. -/
theorem witness_CbcencStoresDrawnIvAndCiphertext :
    State.reset.cfg.wf ∧ bufOf 1 = some .b1 ∧ bufOf 2 = some .b2 ∧
    (load .b1 [] State.reset).Holds .b1 [] ∧ ([] : Bytes).length % 16 = 0 ∧
    ([] : Bytes).length + 16 ≤ (load .b1 [] State.reset).cfg.maxSize ∧
    (load .b1 (List.replicate 240 7) State.reset).Holds .b1 (List.replicate 240 7) ∧
    (List.replicate 240 (7 : Byte)).length % 16 = 0 ∧
    (List.replicate 240 (7 : Byte)).length + 16 ≤ (load .b1 (List.replicate 240 7) State.reset).cfg.maxSize :=
  ⟨by decide, by decide, by decide, load_holds _ _ _ (by decide), by decide, by decide, load_holds _ _ _ (by rw [List.length_replicate]; omega),
    by rw [List.length_replicate], by rw [List.length_replicate]; decide⟩

theorem witness_CbcencInjStoresInjectedIvAndCiphertext :
    ce1.cfg.wf ∧ bufOf 1 = some .b1 ∧ bufOf 2 = some .b2 ∧ ce1.Holds .b1 helloPadded ∧ helloPadded.length % 16 = 0 ∧
    helloPadded.length + 16 ≤ ce1.cfg.maxSize := by
  refine ⟨by decide, by decide, by decide, ⟨by decide +kernel, ?_⟩, by decide, by decide⟩
  decide +kernel

/-- The IV alone and a full buffer. -/
theorem witness_CbcdecStoresThePlaintext :
    State.reset.cfg.wf ∧ bufOf 2 = some .b2 ∧ (load .b2 ivF0 State.reset).Holds .b2 ivF0 ∧ ivF0.length % 16 = 0 ∧
    16 ≤ ivF0.length ∧ ivF0.length ≤ (load .b2 ivF0 State.reset).cfg.maxSize ∧
    (load .b2 (List.replicate 256 3) State.reset).Holds .b2 (List.replicate 256 3) ∧
    (List.replicate 256 (3 : Byte)).length ≤ (load .b2 (List.replicate 256 3) State.reset).cfg.maxSize :=
  ⟨by decide, by decide, load_holds _ _ _ (by decide), by decide, by decide, by decide, load_holds _ _ _ (by rw [List.length_replicate]; omega),
    by rw [List.length_replicate]; decide⟩

/-- Claims 17 (above 16), 2 of a 1-byte message (above its length), 16 of 16 bytes and 0. -/
theorem witness_UnpadStripsTheClaimedPadding :
    State.reset.cfg.wf ∧ bufOf 0 = some .b0 ∧
    ((load .b0 (List.replicate 17 17) State.reset).Holds .b0 (List.replicate 17 17) ∧
      16 < lastByte (List.replicate 17 17)) ∧
    ((load .b0 [2] State.reset).Holds .b0 [2] ∧ ([2] : Bytes).length < lastByte [2]) ∧
    ((load .b0 (List.replicate 16 16) State.reset).Holds .b0 (List.replicate 16 16) ∧
      lastByte (List.replicate 16 16) ≤ 16 ∧ lastByte (List.replicate 16 16) ≤ (List.replicate 16 (16 : Byte)).length) ∧
    ((load .b0 [0] State.reset).Holds .b0 [0] ∧ lastByte [0] = 0) :=
  ⟨by decide, by decide, ⟨load_holds _ _ _ (by rw [List.length_replicate]; omega), by decide⟩, ⟨load_holds _ _ _ (by decide), by decide⟩,
    ⟨load_holds _ _ _ (by rw [List.length_replicate]; omega), by decide, by decide⟩, load_holds _ _ _ (by decide), by decide⟩

/-- No block, one block, and two messages that agree in their first block only. -/
theorem witness_CbcEncChainsEveryBlock : ([] : Bytes).length = 16 * 0 ∧ helloPadded.length = 16 * 1 ∧ ivF0.length = 16 ∧
    (helloPadded ++ ivF0).length = 16 * 2 ∧ (helloPadded ++ helloPadded).length = 16 * 2 ∧
    (helloPadded ++ ivF0).take (16 * 1) = (helloPadded ++ helloPadded).take (16 * 1) := by decide

theorem witness_CbcDecUnchainsEveryBlock : ivF0.length = 16 * (0 + 1) ∧ (ivF0 ++ helloCipher).length = 16 * (1 + 1) := by
  decide

theorem witness_CbcDecUndoesCbcEnc : helloPadded.length % 16 = 0 ∧ ivF0.length = 16 := by decide

/-- The first byte of the IV and the last byte of the last block. -/
theorem witness_TamperedCiphertextDecryptsDifferently :
    ∃ (h0 : 0 < (ivF0 ++ helloCipher).length) (h31 : 31 < (ivF0 ++ helloCipher).length),
      (ivF0 ++ helloCipher).length = 16 * (0 + 2) ∧ (0xF1 : Byte) ≠ (ivF0 ++ helloCipher)[0] ∧
      (0xFF : Byte) ≠ (ivF0 ++ helloCipher)[31] :=
  ⟨by decide, by decide, by decide, by decide, by decide⟩

/-- "hello", and 16-byte messages that end in 0, 17, 1 and 16, with the selectors of ENCMSG and DECMSG. -/
theorem witness_MessageRoundTrip :
    State.reset.cfg.wf ∧ SelectsBuffer 1 ∧ SelectsBuffer 2 ∧ bufOf 0 = some .b0 ∧
    (∀ p : Bytes, p.length ≤ 16 → (load .b0 p State.reset).Holds .b0 p) ∧
    padLen 5 + 16 ≤ State.reset.cfg.maxSize ∧ padLen 16 + 16 ≤ State.reset.cfg.maxSize ∧ 5 % 16 ≠ 0 ∧
    lastByte (List.replicate 16 0) = 0 ∧ lastByte (List.replicate 16 17) = 17 ∧ lastByte (List.replicate 16 1) = 1 ∧
    lastByte (List.replicate 16 16) = 16 :=
  ⟨by decide, by decide, by decide, by decide, fun p h => load_holds _ _ _ (by omega), by decide, by decide, by decide,
    by decide, by decide, by decide, by decide⟩

theorem witness_BufferCommandsIgnoreTheBlockRegisters : BufferCommand (.cbcencInj 1 2) ∧ BufferCommand (.cbcdec 2 0) ∧
    ∀ src dst, Instr.cbcdec 2 0 ≠ .cbcencInj src dst := by
  refine ⟨trivial, trivial, fun src dst h => ?_⟩
  cases h

theorem witness_ResetAbandonsThePendingCommand : (busy .encb [.reset]).inputs = [.reset] ∧ (busy .encb [.reset]).busy = true := by
  decide

/-- The smallest and the largest legal buffers, and a base other than 0. -/
theorem witness_InvariantHoldsAfterReset : (⟨Params.reference.key, 32, 0⟩ : Params).wf ∧
    (⟨Params.reference.key, 65536, 0x40000⟩ : Params).wf := by decide

theorem witness_EveryStepKeepsTheInvariant :
    (busy .encb []).Inv ∧ ∃ t, step (busy .encb []) = .next t ∧ t.blkX = 0x30D6A63D14EADEC5 :=
  ⟨by decide, exists_next (f := fun t => t.blkX) (by decide +kernel)⟩

/-- Each fault with its read: RK[0], a byte alone, a byte in its aligned word, and a completion's source byte. -/
theorem witness_StepsFaultOnlyOnUnwrittenReads :
    step (idle [.host ⟨.read, 8, 0x100⟩]) = .fault (.unwrittenRk 0) ∧
    step (idle [.host ⟨.read, 1, 0x200FF⟩]) = .fault (.unwrittenByte .b1 255) ∧
    step ((idle [.host ⟨.read, 8, 0x300F8⟩]).bufWrite .b2 248 [1, 2, 3]) = .fault (.unwrittenByte .b2 251) ∧
    step (acceptIssue (.unpad 0 0) { State.reset with len0 := 1 }) = .fault (.unwrittenByte .b0 0) :=
  ⟨eq_fault (by decide), eq_fault (by decide), eq_fault (by decide), eq_fault (by decide)⟩

/-- A command whose source is written, and one whose source is not. -/
theorem witness_AcceptedCommandsNeverFail :
    (let s := acceptIssue (.pad 1 2) ce1
     s.Inv ∧ s.pend = some (.pad 1 2) ∧ SourceWritten (.pad 1 2) s) ∧
    (let s := acceptIssue (.pad 0 2) { State.reset with len0 := 1 }
     s.Inv ∧ s.pend = some (.pad 0 2) ∧ exec (.pad 0 2) s = .fault (.unwrittenByte .b0 0)) := by
  refine ⟨⟨by decide +kernel, by decide, ?_⟩, by decide, by decide, eq_fault (by decide)⟩
  rintro b o ⟨⟨src, hs, hb⟩, ho⟩
  obtain rfl : 1 = src := Option.some.inj hs
  obtain rfl : Buf.b1 = b := Option.some.inj hb
  have ho : o < 16 := ho
  clear hs hb
  interval_cases o <;> decide +kernel

/-- ENCB with a STATUS read and a write that clears every flag, and an invalid UNPAD issued with PADERR, ERR and ERRCODE
set and the flags cleared before it completes. -/
theorem witness_HostStepsDoNotDisturbThePendingCommand :
    (let s : State := busy .encb [.host (readAt State.reset 0x10), .host (writeAt State.reset 0x10 0x16)]
     s.busy = true ∧ s.pend = some .encb ∧ (∀ e ∈ s.inputs, ∃ acc, e = Event.host acc) ∧
     ∃ u, exec .encb s = .next u ∧ u.blkX = 0x30D6A63D14EADEC5) ∧
    (let s : State := { load .b0 [2] (busy (.unpad 0 1) [.host (writeAt State.reset 0x10 0x14)]) with
        padErr := true, err := true, errCode := 3 }
     s.busy = true ∧ s.pend = some (.unpad 0 1) ∧ (∀ e ∈ s.inputs, ∃ acc, e = Event.host acc) ∧
     (Instr.unpad 0 1).WellFormed ∧ lenOk (.unpad 0 1) s = true ∧ StatusClearComing s 2 ∧ StatusClearComing s 4 ∧
     (∃ u, exec (.unpad 0 1) s = .next u ∧ u.padErr = true) ∧
     ∃ v, exec (.unpad 0 1) { s with padErr := false } = .next v ∧ v.padErr = true) := by
  refine ⟨⟨by decide, by decide, fun e he => ?_, exists_next (f := fun t => t.blkX) (by decide +kernel)⟩,
    by decide, by decide, fun e he => ?_, by decide, by decide, ⟨0x14, by decide, by decide⟩, ⟨0x14, by decide, by decide⟩,
    exists_next (f := fun t => t.padErr) (by decide), exists_next (f := fun t => t.padErr) (by decide)⟩
  · rcases List.mem_cons.1 he with rfl | he
    · exact ⟨_, rfl⟩
    · rcases List.mem_cons.1 he with rfl | he
      · exact ⟨_, rfl⟩
      · cases he
  · rcases List.mem_cons.1 he with rfl | he
    · exact ⟨_, rfl⟩
    · cases he

/-- BUSY rising at an accepted CMD write, and falling at a completion and at a reset. -/
theorem witness_BusyChangesOnlyByIssueCompletionReset :
    ((idle [.host (writeAt State.reset 0x8 0)]).busy = false ∧
      ∃ t, step (idle [.host (writeAt State.reset 0x8 0)]) = .next t ∧ t.busy = true) ∧
    ((busy .nop []).busy = true ∧ ∃ t, step (busy .nop []) = .next t ∧ t.busy = false) ∧
    ∃ t, step (busy .nop [.reset]) = .next t ∧ t.busy = false :=
  ⟨⟨by decide, exists_next (f := fun t => t.busy) (by decide)⟩,
   ⟨by decide, exists_next (f := fun t => t.busy) (by decide)⟩, exists_next (f := fun t => t.busy) (by decide)⟩

/-- DONE rising at a completion, and falling at an accepted CMD write. -/
theorem witness_DoneChangesOnlyAsItsRuleSays :
    ((busy .nop []).done = false ∧ ∃ t, step (busy .nop []) = .next t ∧ t.done = true) ∧
    (let s : State := { idle [.host (writeAt State.reset 0x8 0)] with done := true }
     s.done = true ∧ ∃ t, step s = .next t ∧ t.done = false) :=
  ⟨⟨by decide, exists_next (f := fun t => t.done) (by decide)⟩,
   by decide, exists_next (f := fun t => t.done) (by decide)⟩

/-- ERR rising at a rejected CMD write, and falling at a STATUS write with bit 2 set. -/
theorem witness_ErrChangesOnlyAsItsRuleSays :
    (let s : State := idle [.host (writeAt State.reset 0x8 0x8)]
     s.PendOk ∧ s.err = false ∧ ∃ t, step s = .next t ∧ t.err = true) ∧
    (let s : State := rejectIssue .badLen (idle [.host (writeAt State.reset 0x10 0x4)])
     s.PendOk ∧ s.err = true ∧ ∃ t, step s = .next t ∧ t.err = false) :=
  ⟨⟨by decide, by decide, exists_next (f := fun t => t.err) (by decide)⟩,
   by decide, by decide, exists_next (f := fun t => t.err) (by decide)⟩

/-- PADERR rising at an UNPAD whose claim exceeds its length, and falling at a STATUS write with bit 4 set. -/
theorem witness_PadErrChangesOnlyAsItsRuleSays :
    (let s : State := acceptIssue (.unpad 0 1) (load .b0 [2] State.reset)
     s.padErr = false ∧ ∃ t, step s = .next t ∧ t.padErr = true) ∧
    (let s : State := { idle [.host (writeAt State.reset 0x10 0x10)] with padErr := true }
     s.padErr = true ∧ ∃ t, step s = .next t ∧ t.padErr = false) :=
  ⟨⟨by decide, exists_next (f := fun t => t.padErr) (by decide)⟩,
   by decide, exists_next (f := fun t => t.padErr) (by decide)⟩

theorem witness_EngineStepRunsThePendingCommand :
    ((busy .decb [.engine]).busy = true ∧ (busy .decb [.engine]).pend = some .decb ∧
      (busy .decb [.engine]).inputs = [.engine]) ∧
    ((busy .decb []).busy = true ∧ (busy .decb []).pend = some .decb ∧ (busy .decb []).inputs = []) ∧
    ((idle [.engine]).busy = false ∧ (idle [.engine]).inputs = [.engine]) := by decide

theorem witness_IdleBlockHoldsItsState : (idle []).busy = false ∧ (idle []).inputs = [] := by decide

theorem witness_CommandWriteThenEngineRunsTheCommand :
    let s : State := { ce1 with inputs := [.host (writeAt ce1 0x8 (encode (.cbcenc 1 2))), .engine] }
    (Instr.cbcenc 1 2).WellFormed ∧ lenOk (.cbcenc 1 2) s = true ∧ s.busy = false ∧
    s.inputs = [.host (writeAt s 0x8 (encode (.cbcenc 1 2))), .engine] := by decide +kernel

theorem witness_PlacedWordRunsAsItsCommand : decodeTableWord 64 0x195 = some (.cbcencInj 1 2) := by decide

theorem witness_DoCommandPollsToCompletion :
    let s : State := idle (doEvents State.reset.cfg .keyinit 2)
    Instr.keyinit.WellFormed ∧ lenOk .keyinit s = true ∧ s.busy = false ∧ s.inputs = doEvents s.cfg .keyinit 2 ∧
    ∃ u, exec .keyinit { s with pend := some .keyinit, busy := true, done := false } = .next u ∧ u.ksValid = true :=
  ⟨by decide, by decide, by decide, by decide, exists_next (f := fun t => t.ksValid) (by decide +kernel)⟩

end Sys2Proof.Tests
end

section
/-! SUPPORT. The STATUS and CONFIG registers (spec/10_state.md R33, R42): the step that takes a host access to a register,
and the obligations O11 and O12. -/

namespace Sys2Proof.Proofs

open Sys2Proof Sys2Proof.Machine Sys2Proof.Claims

/-! ### One step at a register -/

/-- A register that takes no write: CONFIG and the round keys (R33, R46). -/
def ReadOnlyReg (r : Reg) : Prop := r = .config ∨ ∃ i, r = .rk i

/-- R84: the step that takes a host write to a writable register, BUSY = 0 or the register STATUS. -/
theorem step_write_reg {s : State} {r : Reg} {v : Word} {rest : List Event} (hr : ¬ ReadOnlyReg r)
    (hb : s.busy = true → r = .status) (hin : s.inputs = .host (writeAt s (regOffset r) v) :: rest) :
    step s = .next (respond (some ⟨false, none⟩) (writeReg r v { s with inputs := rest })) := by
  rw [step_of_host hin]
  exact hostAccess_write_reg { s with inputs := rest } r v (fun h => hr (.inl h)) (fun i h => hr (.inr ⟨i, h⟩)) hb

/-- R84: the step that takes a host read of a register that answers, BUSY = 0 or the register STATUS or CONFIG. -/
theorem step_read_reg {s : State} {r : Reg} {w : Word} {rest : List Event} (hw : readReg r s = .ok w)
    (hb : s.busy = true → r = .status ∨ r = .config) (hin : s.inputs = .host (readAt s (regOffset r)) :: rest) :
    step s = .next { s with inputs := rest, resp := some ⟨false, some w⟩ } := by
  have hw' : readReg r { s with inputs := rest } = .ok w := hw
  have hacc := hostAccess_read_reg { s with inputs := rest } r hb
  rw [hw'] at hacc
  rw [step_of_host hin]
  exact hacc

/-- R270 (d): an 8-byte write to a read-only register is a bus error in every state. -/
theorem isBusError_write_readOnly (s : State) {r : Reg} (v : Word) (addr : Nat) (hr : ReadOnlyReg r) :
    isBusError s ⟨.write v, 8, addr⟩ (regOffset r) = true := by
  have ht : targetOf (regOffset r) = .register (regOffset r) :=
    targetOf_register _ (lt_trans (regOffset_lt r) (by decide))
  have hbad : badTarget s.cfg (.write v) 8 (.register (regOffset r)) = true := by
    obtain rfl | ⟨i, rfl⟩ := hr <;> simp [badTarget, regAt_regOffset]
  simp [isBusError, ht, hbad]

/-- R270: the step that takes a host write to a read-only register answers the error and changes nothing. -/
theorem step_write_readOnly {s : State} {r : Reg} {v : Word} {rest : List Event} (hr : ReadOnlyReg r)
    (hin : s.inputs = .host (writeAt s (regOffset r) v) :: rest) :
    step s = .next { s with inputs := rest, resp := some ⟨true, none⟩ } := by
  have hlt : regOffset r < 0x40000 := lt_trans (regOffset_lt r) (by decide)
  rw [step_of_host hin]
  simp [hostAccess, writeAt, blockAddr_base_add _ _ hlt, isBusError_write_readOnly _ _ _ hr, errorResponse, respond]

/-! ### STATUS -/

/-- R42: the step that takes a host write to STATUS, BUSY whatever it is. -/
theorem step_write_status {s : State} {v : Word} {rest : List Event}
    (hin : s.inputs = .host (writeAt s 0x10 v) :: rest) :
    step s = .next (respond (some ⟨false, none⟩) (writeStatus v { s with inputs := rest })) :=
  step_write_reg (r := .status) (by simp [ReadOnlyReg]) (fun _ => rfl) hin

/-- Settles O11: STATUS takes its write in every state, and `writeStatus` clears flag by flag. -/
theorem statusWriteClearsSelectedFlags : Obligations.StatusWriteClearsSelectedFlags := by
  intro s v rest hin
  refine ⟨_, step_write_status hin, ?done1, ?done0, ?err1, ?err0, ?padErr1, ?padErr0, rfl⟩
  case done1 | done0 =>
    intro hbit
    simp only [respond_done, writeStatus_done, hbit, Bool.not_true, Bool.not_false, Bool.and_false, Bool.and_true]
  case err1 | err0 =>
    intro hbit
    simp only [respond_err, respond_errCode, writeStatus_err, writeStatus_errCode, hbit, Bool.not_true, Bool.not_false,
      Bool.and_false, Bool.and_true, Bool.false_eq_true, if_true, if_false, and_self]
  case padErr1 | padErr0 =>
    intro hbit
    simp only [respond_padErr, writeStatus_padErr, hbit, Bool.not_true, Bool.not_false, Bool.and_false, Bool.and_true]

/-! ### CONFIG -/

/-- R33: CONFIG as a number, the fixed fields below bit 32 and P_MAX_SIZE above them. -/
theorem configWord_toNat (p : Params) (h : p.maxSize < 2 ^ 32) :
    (configWord p).toNat = p.maxSize * 2 ^ 32 + 0x01104020 := by
  have hshift : (p.maxSize <<< 32) % 2 ^ 64 = p.maxSize <<< 32 := by
    rw [Nat.shiftLeft_eq]; omega
  have hsize : p.maxSize % 2 ^ 64 = p.maxSize := by omega
  calc (configWord p).toNat = p.maxSize <<< 32 ||| 0x01104020 := by
        rw [configWord, BitVec.toNat_or, BitVec.toNat_shiftLeft, BitVec.toNat_ofNat, hsize, hshift]; rfl
    _ = p.maxSize <<< 32 + 0x01104020 := (Nat.shiftLeft_add_eq_or_of_lt (by decide) _).symm
    _ = p.maxSize * 2 ^ 32 + 0x01104020 := by rw [Nat.shiftLeft_eq]

/-- Settles O12: a read answers `configWord`, whose fields are those of its number; a write is a bus error. -/
theorem configReadsItsConstantFields : Obligations.ConfigReadsItsConstantFields := by
  rintro s rest ⟨-, -, hmax, -⟩
  constructor
  · intro hin
    have hw := configWord_toNat s.cfg (by omega)
    exact ⟨configWord s.cfg, step_read_reg (r := .config) rfl (fun _ => .inr rfl) hin,
      by omega, by omega, by omega, by omega, by omega⟩
  · intro v hin
    exact step_write_readOnly (r := .config) (.inl rfl) hin

end Sys2Proof.Proofs
end

section
/-! SUPPORT. Words and the eight bytes they stand for: LE64 and BYTES64 are inverse, and LE64 as a number (spec/00_scope.md
R13); the obligation O30 (spec/20_memory.md R88). -/

namespace Sys2Proof.Proofs

open Sys2Proof Sys2Proof.Machine Sys2Proof.Claims

/-! ### LE64 and BYTES64 -/

/-- A word is determined by its eight bytes: bit `i` is bit `i % 8` of byte `i / 8`. -/
theorem word_eq_of_bytes_eq {v w : Word} (h : ∀ k < 8, v.extractLsb' (8 * k) 8 = w.extractLsb' (8 * k) 8) : v = w := by
  apply BitVec.eq_of_getLsbD_eq
  intro i hi
  have hbit := congrArg (·.getLsbD (i % 8)) (h (i / 8) (by omega))
  simpa [BitVec.getLsbD_extractLsb', Nat.mod_lt, Nat.div_add_mod] using hbit

/-- BYTES64 undoes LE64 on eight bytes. -/
theorem bytes64_le64 (l : Bytes) (h : l.length = 8) : bytes64 (le64 l) = l := by
  apply List.ext_getElem (by simp [h])
  intro k _ hk
  rw [bytes64_getElem _ k (by omega), le64_extract l k hk (by omega)]

/-- LE64 undoes BYTES64. -/
theorem le64_bytes64 (v : Word) : le64 (bytes64 v) = v := by
  apply word_eq_of_bytes_eq
  intro k hk
  rw [le64_extract (bytes64 v) k (by simpa using hk) hk, bytes64_getElem v k hk]

/-- LE64 of at most eight bytes is the number whose base-256 digits they are, the first the least significant. -/
theorem le64_toNat_eq_sum (l : Bytes) (h : l.length ≤ 8) :
    (le64 l).toNat = ((List.range l.length).map fun k => (l.getD k 0).toNat * 256 ^ k).sum := by
  induction l with
  | nil => rfl
  | cons b l ih =>
    simp only [List.length_cons] at h
    have hlt : (le64 l).toNat < 256 ^ 7 :=
      (le64_toNat_lt l (by omega)).trans_le (Nat.pow_le_pow_right (by decide) (by omega))
    have hshift : ((List.range l.length).map fun k => (l.getD k 0).toNat * 256 ^ (k + 1)).sum =
        256 * ((List.range l.length).map fun k => (l.getD k 0).toNat * 256 ^ k).sum := by
      rw [← List.sum_map_mul_left]
      simp only [pow_succ', mul_left_comm]
    rw [le64_cons_toNat b l hlt, ih (by omega), ← hshift]
    simp [List.range_succ_eq_map, Function.comp_def]

/-! ### BLOCK and UNBLOCK -/

/-- R88: eight bytes of a block, from offset `o` on, as a number. -/
theorem le64_take_drop_toNat (S : Bytes) (o : Nat) (h : o + 8 ≤ S.length) :
    (le64 ((S.drop o).take 8)).toNat = ((List.range 8).map fun k => (S.getD (o + k) 0).toNat * 256 ^ k).sum := by
  have hlen : ((S.drop o).take 8).length = 8 := by simp; omega
  rw [le64_toNat_eq_sum _ hlen.le, hlen]
  congr 1
  apply List.map_congr_left
  intro k hk
  have hk8 : k < 8 := List.mem_range.1 hk
  simp [List.getD_eq_getElem?_getD, hk8]

/-- R88: UNBLOCK undoes BLOCK on 16 bytes. -/
theorem unblock_blockOf (S : Bytes) (h : S.length = 16) : unblock (blockOf S) = S := by
  have hx : (S.take 8).length = 8 := by simp [h]
  have hy : (S.drop 8).length = 8 := by simp [h]
  rw [unblock, blockOf, List.take_of_length_le hy.le, bytes64_le64 _ hx, bytes64_le64 _ hy, List.take_append_drop]

/-- R88: BLOCK undoes UNBLOCK. -/
theorem blockOf_unblock (b : Block) : blockOf (unblock b) = b := by
  have hx : (unblock b).take 8 = bytes64 b.x := List.take_left' (bytes64_length b.x)
  have hy : ((unblock b).drop 8).take 8 = bytes64 b.y := by
    rw [unblock, List.drop_left' (bytes64_length b.x), List.take_of_length_le (bytes64_length b.y).le]
  rw [blockOf, hx, hy, le64_bytes64, le64_bytes64]

/-- Settles O30: the two inverses, and each word of the pair as the number of its eight bytes. -/
theorem blockAndUnblockAreInverse : Obligations.BlockAndUnblockAreInverse := by
  refine ⟨fun S h => ⟨unblock_blockOf S h, ?_, le64_take_drop_toNat S 8 h.ge⟩, blockOf_unblock⟩
  simpa [blockOf] using le64_take_drop_toNat S 0 (by omega)

end Sys2Proof.Proofs
end

section
/-! SUPPORT. One step at a buffer: the host's byte and word accesses (spec/20_memory.md R85, R86) as one access of width
`w`, and the obligations O15 and O16. -/

namespace Sys2Proof.Proofs

open Sys2Proof Sys2Proof.Machine Sys2Proof.Claims

/-! ### One step at a buffer -/

/-- R85, R86: an access of width `w` at offset `o` of a buffer that is no bus error. -/
structure BufferAccessAnswers (s : State) (o w : Nat) : Prop where
  idle : s.busy = false
  width : w = 1 ∨ (w = 8 ∧ o % 8 = 0)
  size : s.cfg.maxSize ≤ 65536
  inside : o + w ≤ s.cfg.maxSize

/-- R85, R86: the step that takes a host read of `w` written bytes of a buffer answers LE64 of them and changes nothing
else. -/
theorem step_read_buffer {s : State} {b : Buf} {o w : Nat} {x : Nat → Byte} {rest : List Event}
    (h : BufferAccessAnswers s o w) (hx : ∀ k < w, s.byteAt b (o + k) = some (x k))
    (hin : s.inputs = .host ⟨.read, w, s.cfg.base + bufAddr b o⟩ :: rest) :
    step s = .next { s with inputs := rest, resp := some ⟨false, some (le64 ((List.range w).map x))⟩ } := by
  have hread : State.bufRead { s with inputs := rest } b o w = .ok ((List.range w).map x) := by
    refine (bufRead_ok_iff _ b o w _).2 ⟨by simp, fun k hk => ?_⟩
    have hkw : k < w := by simpa using hk
    rw [List.getElem_map, List.getElem_range]
    exact hx k hkw
  have hacc := hostAccess_read_buffer { s with inputs := rest } w b o h.idle h.width h.size h.inside
  rw [hread] at hacc
  rw [step_of_host hin]
  exact hacc

/-- R85, R86: the step that takes a host write of width `w` to a buffer stores the low `w` bytes of the bus data, lowest
byte first, and changes nothing else but the answer. -/
theorem step_write_buffer {s : State} {b : Buf} {o w : Nat} {v : Word} {rest : List Event}
    (h : BufferAccessAnswers s o w) (hin : s.inputs = .host ⟨.write v, w, s.cfg.base + bufAddr b o⟩ :: rest) :
    ∃ t, step s = .next t ∧ (∀ k < w, t.byteAt b (o + k) = some (v.extractLsb' (8 * k) 8)) ∧
      (∀ a, (a < bufAddr b o ∨ bufAddr b o + w ≤ a) → Memory.get t.mem a = Memory.get s.mem a) ∧
      t = { s with inputs := rest, resp := some ⟨false, none⟩, mem := t.mem } := by
  have hw8 : w ≤ 8 := by obtain rfl | ⟨rfl, -⟩ := h.width <;> decide
  have hlen : ((bytes64 v).take w).length = w := by simp [hw8]
  have hacc := hostAccess_write_buffer { s with inputs := rest } w v b o h.idle h.width h.size h.inside
  refine ⟨_, (step_of_host hin).trans hacc, fun k hk => ?stored, fun a ha => ?kept, rfl⟩
  case stored =>
    have hbyte : ((bytes64 v).take w)[k]'(by omega) = v.extractLsb' (8 * k) 8 := by
      rw [List.getElem_take, bytes64_getElem v k (by omega)]
    rw [← hbyte]
    exact byteAt_bufWrite_inside _ b o _ k (by omega)
  case kept =>
    exact get_bufWrite_outside { s with inputs := rest } b o a _ (by rwa [hlen])

/-! ### The two widths -/

/-- R85: LE64 of one byte is the byte zero-extended. -/
theorem le64_singleton (x : Byte) : le64 [x] = x.setWidth 64 := by simp [le64]

/-- Settles O15: the buffer access of width 1. -/
theorem byteAccessMovesOneByte : Obligations.ByteAccessMovesOneByte := by
  rintro s b o rest hbusy ⟨-, -, hmax, -⟩ ho
  have hacc : BufferAccessAnswers s o 1 := ⟨hbusy, .inl rfl, hmax, ho⟩
  refine ⟨fun x hx hin => ?read, fun v hin => ?write⟩
  case read =>
    have hbyte : ∀ k < 1, s.byteAt b (o + k) = some x := by
      intro k hk
      rwa [Nat.lt_one_iff.1 hk]
    rw [step_read_buffer hacc hbyte hin, ← le64_singleton]
    rfl
  case write =>
    obtain ⟨t, hstep, hstored, hkept, hframe⟩ := step_write_buffer hacc hin
    exact ⟨t, hstep, hstored 0 Nat.one_pos, fun a ha => hkept a (by omega), hframe⟩

/-- Settles O16: the buffer access of width 8. -/
theorem wordAccessMovesEightBytesLittleEndian : Obligations.WordAccessMovesEightBytesLittleEndian := by
  rintro s b o rest hbusy ⟨-, -, hmax, -⟩ halign ho
  have hacc : BufferAccessAnswers s o 8 := ⟨hbusy, .inr ⟨rfl, halign⟩, hmax, ho⟩
  refine ⟨fun x hx hin => ⟨_, step_read_buffer hacc hx hin, fun k hk => ?_⟩, fun v hin => step_write_buffer hacc hin⟩
  rw [le64_extract _ k (by simpa using hk) hk, List.getElem_map, List.getElem_range]

end Sys2Proof.Proofs
end

section
/-! SUPPORT. The command word (spec/30_encoding.md R121 to R129): its fields as numbers, what the decoder answers
in each case of the issue check, the words that decode, and the obligations O2 and O4. -/

namespace Sys2Proof.Proofs

open Sys2Proof Sys2Proof.Machine Sys2Proof.Claims

/-! ### The fields as numbers -/

theorem opField_eq_opOf (v : Word) : opField v = opOf v := by
  simp [opField, opOf, BitVec.extractLsb'_toNat]

@[simp] theorem srcField_toNat (v : Word) : (srcField v).toNat = srcOf v := by
  simp [srcField, srcOf, BitVec.extractLsb'_toNat, Nat.shiftRight_eq_div_pow]

@[simp] theorem dstField_toNat (v : Word) : (dstField v).toNat = dstOf v := by
  simp [dstField, dstOf, BitVec.extractLsb'_toNat, Nat.shiftRight_eq_div_pow]

theorem srcField_eq_three_iff (v : Word) : srcField v = 3 ↔ srcOf v = 3 := by
  simp [← BitVec.toNat_inj]

theorem dstField_eq_three_iff (v : Word) : dstField v = 3 ↔ dstOf v = 3 := by
  simp [← BitVec.toNat_inj]

theorem ivselField_eq_true_iff (v : Word) : ivselField v = true ↔ ivselOf v = 1 := by
  simp [ivselField, ivselOf, BitVec.getLsbD, Nat.testBit_eq_decide_div_mod_eq]

theorem operandFields_eq_zero_iff (v : Word) : operandFields v = 0 ↔ v.toNat / 16 % 32 = 0 := by
  simp [operandFields, ← BitVec.toNat_inj, BitVec.extractLsb'_toNat, Nat.shiftRight_eq_div_pow]

theorem rsvdField_eq_zero_iff (v : Word) : rsvdField v = 0 ↔ v.toNat / 512 = 0 := by
  have hlt : v.toNat / 512 < 2 ^ 55 := by have := v.isLt; omega
  have hnum : (rsvdField v).toNat = v.toNat / 512 := by
    rw [rsvdField, BitVec.extractLsb'_toNat, Nat.shiftRight_eq_div_pow, Nat.mod_eq_of_lt hlt]
  rw [← BitVec.toNat_inj, hnum]
  rfl

/-- R121: the word is its five fields, each at its place. -/
theorem toNat_eq_sum_of_fields (v : Word) :
    v.toNat = opOf v + 16 * srcOf v + 64 * dstOf v + 256 * ivselOf v + 512 * (v.toNat / 512) := by
  unfold opOf srcOf dstOf ivselOf; omega

/-- R121: a buffer command's word as a number. -/
theorem bufferWord_toNat (op : BitVec 4) (src dst : BitVec 2) (ivsel : BitVec 1) :
    (bufferWord op src dst ivsel).toNat = op.toNat + 16 * src.toNat + 64 * dst.toNat + 256 * ivsel.toNat := by
  have hadd {m n : Nat} (x : BitVec m) (y : BitVec n) : (x ++ y).toNat = x.toNat * 2 ^ n + y.toNat := by
    rw [BitVec.toNat_append, ← Nat.shiftLeft_add_eq_or_of_lt y.isLt, Nat.shiftLeft_eq]
  simp only [bufferWord, hadd, BitVec.toNat_ofNat]
  omega

/-! ### What the decoder answers -/

/-- A buffer command's word one of whose buffer fields selects no buffer (R122). -/
abbrev NamesNoBuffer (v : Word) : Prop := 4 ≤ opOf v ∧ (srcOf v = 3 ∨ dstOf v = 3)

/-- The command that the opcode map gives for the fields of a word (R124). -/
def commandOfWord (v : Word) : Option Instr := commandOf (opOf v) (srcField v) (dstField v) (ivselField v)

/-- R124: the opcode map has a command for every word that is not reserved. -/
theorem exists_commandOfWord {v : Word} (hr : ¬ ReservedWord v) : ∃ i, commandOfWord v = some i := by
  have hop : opOf v < 8 := not_le.1 fun hop => hr (.inl hop)
  unfold commandOfWord
  interval_cases opOf v <;> exact ⟨_, rfl⟩

/-- R126: the checks that give code 1. -/
theorem decode_of_reserved {v : Word} (h : ReservedWord v) : decode v = .error .illegalCmd := by
  simp only [decode, opField_eq_opOf, ne_eq, rsvdField_eq_zero_iff, operandFields_eq_zero_iff, ivselField_eq_true_iff]
  obtain hop | hrsvd | hoperand | hivsel := h
  · rw [if_pos hop]
  · rw [if_pos hrsvd, ite_self]
  · rw [if_pos hoperand, ite_self, ite_self]
  · rw [if_pos hivsel, ite_self, ite_self, ite_self]

/-- R126: what follows the checks that give code 1. -/
theorem decode_of_not_reserved {v : Word} (hr : ¬ ReservedWord v) :
    decode v = if NamesNoBuffer v then .error .badBuf else (commandOfWord v).elim (.error .illegalCmd) .ok := by
  simp only [ReservedWord, not_or] at hr
  obtain ⟨hop, hrsvd, hoperand, hivsel⟩ := hr
  simp only [decode, opField_eq_opOf, ne_eq, rsvdField_eq_zero_iff, operandFields_eq_zero_iff, ivselField_eq_true_iff,
    srcField_eq_three_iff, dstField_eq_three_iff]
  rw [if_neg hop, if_neg hrsvd, if_neg hoperand, if_neg hivsel]
  unfold commandOfWord
  cases commandOf (opOf v) (srcField v) (dstField v) (ivselField v) <;> rfl

/-- R126: the check that gives code 2. -/
theorem decode_of_namesNoBuffer {v : Word} (hr : ¬ ReservedWord v) (h : NamesNoBuffer v) :
    decode v = .error .badBuf := by
  rw [decode_of_not_reserved hr, if_pos h]

/-- R126: a word that passes the checks on its fields is decoded by the opcode map. -/
theorem decode_of_commandOfWord {v : Word} {i : Instr} (hr : ¬ ReservedWord v) (hb : ¬ NamesNoBuffer v)
    (hi : commandOfWord v = some i) : decode v = .ok i := by
  rw [decode_of_not_reserved hr, if_neg hb, hi]
  rfl

/-- R126: a word of OP 0 to 3 that is not reserved is its opcode. -/
theorem toNat_eq_opOf {v : Word} (hr : ¬ ReservedWord v) (hop : opOf v ≤ 3) : v.toNat = opOf v := by
  simp only [ReservedWord, not_or, not_and, not_not] at hr
  obtain ⟨-, hrsvd, hoperand, -⟩ := hr
  have hoperand0 := hoperand hop
  unfold opOf
  omega

/-- R126: a word that is not reserved is the buffer command's word of its fields. -/
theorem bufferWord_fields {v : Word} (hr : ¬ ReservedWord v) {op : BitVec 4} {ivsel : BitVec 1}
    (hop : opOf v = op.toNat) (hiv : ivselOf v = ivsel.toNat) : bufferWord op (srcField v) (dstField v) ivsel = v := by
  simp only [ReservedWord, not_or, not_not] at hr
  obtain ⟨-, hrsvd, -⟩ := hr
  apply BitVec.eq_of_toNat_eq
  have hsum := toNat_eq_sum_of_fields v
  rw [bufferWord_toNat, srcField_toNat, dstField_toNat, ← hop, ← hiv]
  omega

/-- R122: a buffer command's word whose fields pass the check of code 2 selects two buffers. -/
theorem selectsBuffer_of_not_namesNoBuffer {v : Word} (hb : ¬ NamesNoBuffer v) (hop : 4 ≤ opOf v) :
    SelectsBuffer (srcField v) ∧ SelectsBuffer (dstField v) :=
  ⟨fun h => hb ⟨hop, .inl ((srcField_eq_three_iff v).1 h)⟩, fun h => hb ⟨hop, .inr ((dstField_eq_three_iff v).1 h)⟩⟩

/-- R126: on a word that passes the checks on its fields the opcode map gives a well-formed command. -/
theorem wellFormed_of_commandOfWord {v : Word} {i : Instr} (hb : ¬ NamesNoBuffer v) (hi : commandOfWord v = some i) :
    i.WellFormed := by
  unfold commandOfWord commandOf at hi
  split at hi
  case h_1 | h_2 | h_3 | h_4 => cases hi; rfl
  case h_5 hop | h_7 hop | h_8 hop => cases hi; exact decide_eq_true (selectsBuffer_of_not_namesNoBuffer hb (by omega))
  case h_6 hop => split at hi <;> cases hi <;> exact decide_eq_true (selectsBuffer_of_not_namesNoBuffer hb (by omega))
  case h_9 => cases hi

/-- R126: the command that the opcode map gives for a word that is not reserved has that word. -/
theorem encode_of_commandOfWord {v : Word} {i : Instr} (hr : ¬ ReservedWord v) (hi : commandOfWord v = some i) :
    encode i = v := by
  have hiv0 : opOf v = 4 ∨ opOf v = 6 ∨ opOf v = 7 → ivselOf v = 0 := fun hop =>
    (Nat.mod_two_eq_zero_or_one _).resolve_right fun hiv => hr (.inr (.inr (.inr ⟨hop, hiv⟩)))
  unfold commandOfWord commandOf at hi
  split at hi
  case h_1 hop | h_2 hop | h_3 hop | h_4 hop =>
    cases hi
    apply BitVec.eq_of_toNat_eq
    rw [toNat_eq_opOf hr (by omega), hop]
    rfl
  case h_5 hop | h_7 hop | h_8 hop => cases hi; exact bufferWord_fields hr hop (hiv0 (by omega))
  case h_6 hop =>
    split at hi
    next hiv => cases hi; exact bufferWord_fields hr hop ((ivselField_eq_true_iff v).1 hiv)
    next hiv =>
      cases hi
      rw [ivselField_eq_true_iff] at hiv
      exact bufferWord_fields hr hop ((Nat.mod_two_eq_zero_or_one _).resolve_right hiv)
  case h_9 => cases hi

/-- R126: a word that decodes passes the checks on its fields. -/
theorem passes_of_decode_ok {v : Word} {i : Instr} (h : decode v = .ok i) : ¬ ReservedWord v ∧ ¬ NamesNoBuffer v := by
  have hr : ¬ ReservedWord v := fun hr => by cases h.symm.trans (decode_of_reserved hr)
  exact ⟨hr, fun hb => by cases h.symm.trans (decode_of_namesNoBuffer hr hb)⟩

/-- R126, R129: the decoder accepts exactly the words of the well-formed commands, each as its command. -/
theorem decode_ok_iff (v : Word) (i : Instr) : decode v = .ok i ↔ i.WellFormed ∧ encode i = v := by
  constructor
  · intro h
    obtain ⟨hr, hb⟩ := passes_of_decode_ok h
    obtain ⟨j, hj⟩ := exists_commandOfWord hr
    obtain rfl : j = i := by simpa [decode_of_commandOfWord hr hb hj] using h
    exact ⟨wellFormed_of_commandOfWord hb hj, encode_of_commandOfWord hr hj⟩
  · rintro ⟨hw, rfl⟩
    revert hw
    cases i with
    | nop | keyinit | encb | decb => decide
    | pad src dst | cbcenc src dst | cbcencInj src dst | cbcdec src dst | unpad src dst => revert src dst; decide

/-! ### The 49 words -/

/-- The values of a buffer field that select a buffer (R122). -/
def bufferFields : List (BitVec 2) := [0, 1, 2]

/-- The nine commands of one buffer family (R129). -/
def bufferFamily (command : BitVec 2 → BitVec 2 → Instr) : List Instr :=
  bufferFields.flatMap fun src => bufferFields.map fun dst => command src dst

/-- The well-formed commands, family by family (R124, R129). -/
def wellFormedCommands : List Instr :=
  [.nop, .keyinit, .encb, .decb] ++ bufferFamily .pad ++ bufferFamily .cbcenc ++ bufferFamily .cbcencInj ++
    bufferFamily .cbcdec ++ bufferFamily .unpad

/-- The words of the well-formed commands (R129). -/
def acceptedWords : List Word := wellFormedCommands.map encode

theorem mem_wellFormedCommands (i : Instr) : i ∈ wellFormedCommands ↔ i.WellFormed := by
  cases i with
  | nop | keyinit | encb | decb => decide
  | pad src dst | cbcenc src dst | cbcencInj src dst | cbcdec src dst | unpad src dst => revert src dst; decide

theorem mem_acceptedWords (v : Word) : v ∈ acceptedWords ↔ ∃ i, decode v = .ok i := by
  simp only [acceptedWords, List.mem_map, mem_wellFormedCommands, decode_ok_iff]

/-- R129: distinct well-formed commands have distinct words, as each word decodes to its own command. -/
theorem acceptedWords_nodup : acceptedWords.Nodup := by
  have hcommands : wellFormedCommands.Nodup := by decide +kernel
  refine hcommands.map_on fun i hi j hj heq => ?_
  have hdi := (decode_ok_iff (encode i) i).2 ⟨(mem_wellFormedCommands i).1 hi, rfl⟩
  have hdj := (decode_ok_iff (encode i) j).2 ⟨(mem_wellFormedCommands j).1 hj, heq.symm⟩
  exact Except.ok.inj (hdi.symm.trans hdj)

/-- Settles O2: the decoded command fixes the word by `decode_ok_iff`, and the accepted words are a list to count. -/
theorem exactlyFortyNineWordsDecode : Obligations.ExactlyFortyNineWordsDecode := by
  refine ⟨fun v w i hv hw => ?injective, acceptedWords, ?nodup, rfl, fun v => (mem_acceptedWords v).symm,
    ?low, ?pad, ?cbcdec, ?unpad, ?cbcenc, ?selects⟩
  case injective =>
    obtain ⟨-, rfl⟩ := (decode_ok_iff v i).1 hv
    obtain ⟨-, rfl⟩ := (decode_ok_iff w i).1 hw
    rfl
  case nodup => exact acceptedWords_nodup
  case low | pad | cbcdec | unpad | cbcenc => decide
  case selects =>
    intro v hv hop
    obtain ⟨i, hi⟩ := (mem_acceptedWords v).1 hv
    obtain ⟨-, hb⟩ := passes_of_decode_ok hi
    have hsrc : srcOf v < 4 := Nat.mod_lt _ (by decide)
    have hdst : dstOf v < 4 := Nat.mod_lt _ (by decide)
    omega

/-! ### The length check -/

/-- R122: LEN of the buffer that a field selects, as a number. -/
theorem lenNumber_of_bufOf {sel : BitVec 2} {b : Buf} (s : State) (h : bufOf sel = some b) :
    lenNumber s sel.toNat = (s.len b).toNat := by
  unfold bufOf at h
  split at h
  case h_1 hn | h_2 hn | h_3 hn => cases h; rw [hn]; rfl
  case h_4 => cases h

/-- R126: OP 0 to 3 have no length bound. -/
theorem lenBound_of_lt {op n maxSize : Nat} (h : op < 4) : LenBound op n maxSize := by
  unfold LenBound; omega

theorem lenOkPad_iff (p : Params) (n : Word) : lenOkPad p n = true ↔ LenBound 4 n.toNat p.maxSize := by
  simp [lenOkPad, LenBound]

theorem lenOkCbcenc_iff (p : Params) (n : Word) : lenOkCbcenc p n = true ↔ LenBound 5 n.toNat p.maxSize := by
  simp [lenOkCbcenc, LenBound]

theorem lenOkCbcdec_iff (p : Params) (n : Word) : lenOkCbcdec p n = true ↔ LenBound 6 n.toNat p.maxSize := by
  simp [lenOkCbcdec, LenBound]

theorem lenOkUnpad_iff (p : Params) (n : Word) : lenOkUnpad p n = true ↔ LenBound 7 n.toNat p.maxSize := by
  simp [lenOkUnpad, LenBound]

/-- R126: a length check that is the bound of opcode `op` reads LEN[SRC] as a number. -/
theorem srcLenOk_iff_lenBound {ok : Params → Word → Bool} {op : Nat} {src : BitVec 2} (s : State)
    (hok : ∀ p n, ok p n = true ↔ LenBound op n.toNat p.maxSize) (hsel : SelectsBuffer src) :
    srcLenOk ok src s = true ↔ LenBound op (lenNumber s src.toNat) s.cfg.maxSize := by
  obtain ⟨b, hb⟩ := bufOf_of_selects src hsel
  rw [lenNumber_of_bufOf s hb, ← hok]
  simp only [srcLenOk, hb]

/-- R126: the length check of the command that the opcode map gives, on plain numbers. -/
theorem lenOk_iff_lenBound {v : Word} {i : Instr} (s : State) (hb : ¬ NamesNoBuffer v) (hi : commandOfWord v = some i) :
    lenOk i s = true ↔ LenBound (opOf v) (lenNumber s (srcOf v)) s.cfg.maxSize := by
  have hsel (hop : 4 ≤ opOf v) : SelectsBuffer (srcField v) := (selectsBuffer_of_not_namesNoBuffer hb hop).1
  rw [← srcField_toNat]
  unfold commandOfWord commandOf at hi
  split at hi
  case h_1 hop | h_2 hop | h_3 hop | h_4 hop =>
    cases hi
    exact iff_of_true rfl (lenBound_of_lt (by omega))
  case h_5 hop =>
    cases hi
    rw [hop]
    exact srcLenOk_iff_lenBound s lenOkPad_iff (hsel (by omega))
  case h_6 hop =>
    rw [hop]
    split at hi <;> cases hi <;> exact srcLenOk_iff_lenBound s lenOkCbcenc_iff (hsel (by omega))
  case h_7 hop =>
    cases hi
    rw [hop]
    exact srcLenOk_iff_lenBound s lenOkCbcdec_iff (hsel (by omega))
  case h_8 hop =>
    cases hi
    rw [hop]
    exact srcLenOk_iff_lenBound s lenOkUnpad_iff (hsel (by omega))
  case h_9 => cases hi

/-- The check of a word that decodes (R126). -/
theorem check_of_decode_ok {v : Word} {i : Instr} (s : State) (h : decode v = .ok i) :
    check v s = if lenOk i s then .ok i else .error .badLen := by
  simp only [check, h]

/-- The check of a word that the decoder rejects (R126). -/
theorem check_of_decode_error {v : Word} {e : CmdError} (s : State) (h : decode v = .error e) :
    check v s = .error e := by
  simp only [check, h]

/-- Settles O4: the decoder's three cases, and the length check on the command it gives. -/
theorem issueCheckGivesTheFirstFailingCheck : Obligations.IssueCheckGivesTheFirstFailingCheck := by
  intro v s
  refine ⟨fun hr => check_of_decode_error s (decode_of_reserved hr),
    fun hr hop hsel => check_of_decode_error s (decode_of_namesNoBuffer hr ⟨hop, hsel⟩),
    fun hr hop hsrc hdst hlen => ?badLen, fun hr hbuf => ?accepted⟩
  case badLen =>
    have hb : ¬ NamesNoBuffer v := fun h => h.2.elim hsrc hdst
    obtain ⟨i, hi⟩ := exists_commandOfWord hr
    rw [check_of_decode_ok s (decode_of_commandOfWord hr hb hi), if_neg]
    rwa [lenOk_iff_lenBound s hb hi]
  case accepted =>
    have hb : ¬ NamesNoBuffer v := fun ⟨hop, hsel⟩ =>
      have ⟨hsrc, hdst, _⟩ := hbuf hop
      hsel.elim hsrc hdst
    obtain ⟨i, hi⟩ := exists_commandOfWord hr
    refine ⟨i, (check_ok_iff v s i).2 ⟨decode_of_commandOfWord hr hb hi, (lenOk_iff_lenBound s hb hi).2 ?_⟩,
      wellFormed_of_commandOfWord hb hi, encode_of_commandOfWord hr hi⟩
    by_cases hop : 4 ≤ opOf v
    · obtain ⟨-, -, hlen⟩ := hbuf hop
      exact hlen
    · exact lenBound_of_lt (not_le.1 hop)

end Sys2Proof.Proofs
end

section
/-! SUPPORT. The command interface (spec/40_command_interface.md R151 to R153): the step that takes a host write to CMD
while BUSY = 0, and the obligations O6 and O7. -/

namespace Sys2Proof.Proofs

open Sys2Proof Sys2Proof.Machine Sys2Proof.Claims

/-! ### The issue -/

/-- R126: the length check reads LEN and the build parameters, not the events to come. -/
theorem lenOk_inputs (i : Instr) (s : State) (l : List Event) : lenOk i { s with inputs := l } = lenOk i s := by
  cases i <;> rfl

/-- R126: the issue check does not read the events to come. -/
theorem check_inputs (v : Word) (s : State) (l : List Event) : check v { s with inputs := l } = check v s := by
  simp only [check, lenOk_inputs]

/-- R152: a word that fails the check is rejected with the check's code. -/
theorem issue_of_check_error {v : Word} {s : State} {e : CmdError} (h : check v s = .error e) :
    issue v s = rejectIssue e s := by
  simp only [issue, h]

/-- R153: a word that passes the check is accepted as the command it encodes. -/
theorem issue_of_check_ok {v : Word} {s : State} {i : Instr} (h : check v s = .ok i) : issue v s = acceptIssue i s := by
  simp only [issue, h]

/-! ### The CMD write -/

/-- R151: the step that takes a host write to CMD while BUSY = 0 issues the word. -/
theorem step_write_cmd {s : State} {v : Word} {rest : List Event} (hb : s.busy = false)
    (hin : s.inputs = .host (writeAt s 0x8 v) :: rest) :
    step s = .next (respond (some ⟨false, none⟩) (issue v { s with inputs := rest })) :=
  step_write_reg (r := .cmd) (by simp [ReadOnlyReg]) (fun h => absurd h (by simp [hb])) hin

/-- Settles O6: the CMD write issues the word, the issue is rejected, and each code is the number R261 gives it. -/
theorem rejectedIssueWritesOnlyErrorFlags : Obligations.RejectedIssueWritesOnlyErrorFlags := by
  intro s v e rest hb hin hcheck
  have hissue : issue v { s with inputs := rest } = rejectIssue e { s with inputs := rest } :=
    issue_of_check_error ((check_inputs v s rest).trans hcheck)
  rw [step_write_cmd hb hin, hissue]
  cases e with
  | illegalCmd | badBuf | badLen => rfl

/-- Settles O7: the CMD write issues the word, and the issue is accepted. -/
theorem acceptedIssueRecordsTheCommand : Obligations.AcceptedIssueRecordsTheCommand := by
  intro s v i rest hb hin hcheck
  have hissue : issue v { s with inputs := rest } = acceptIssue i { s with inputs := rest } :=
    issue_of_check_ok ((check_inputs v s rest).trans hcheck)
  rw [step_write_cmd hb hin, hissue]
  rfl

end Sys2Proof.Proofs
end

section
/-! SUPPORT. The key schedule (spec/41_keyschedule.md R181): the loop's variables as a sequence, the round keys as its
values, and the obligation O22. -/

namespace Sys2Proof.Proofs

open Sys2Proof Sys2Proof.Machine Sys2Proof.Claims

/-! ### The key words -/

/-- R89: the low key word as the number of the first eight key bytes. -/
theorem keyLow_toNat (key : Vector Byte 16) :
    (keyLow key).toNat = ((List.range 8).map fun k => (key.toList.getD k 0).toNat * 256 ^ k).sum := by
  simpa [keyLow] using le64_take_drop_toNat key.toList 0 (by simp)

/-- R89: the high key word as the number of the last eight key bytes. -/
theorem keyHigh_toNat (key : Vector Byte 16) :
    (keyHigh key).toNat = ((List.range 8).map fun k => (key.toList.getD (8 + k) 0).toNat * 256 ^ k).sum := by
  have hlen : (key.toList.drop 8).length = 8 := by simp
  rw [keyHigh, ← List.take_of_length_le hlen.le]
  exact le64_take_drop_toNat key.toList 8 (by simp)

/-! ### The loop's variables -/

/-- The variables of R181's loop: the accumulator `a` and the round key rk[i]. -/
structure ScheduleVars where
  a : Word
  rk : Word

/-- The variables of R181's loop on entry to iteration `i`. -/
def scheduleVars (key : Vector Byte 16) : Nat → ScheduleVars
  | 0 => ⟨keyHigh key, keyLow key⟩
  | i + 1 =>
    let v := scheduleVars key i
    let a' := nextAccumulator v.a v.rk i
    ⟨a', nextRoundKey a' v.rk⟩

/-- R181: the accumulator of the next iteration. -/
theorem scheduleVars_succ_a (key : Vector Byte 16) (i : Nat) :
    (scheduleVars key (i + 1)).a =
      ((scheduleVars key i).a.rotateRight 8 + (scheduleVars key i).rk) ^^^ BitVec.ofNat 64 i := by
  rw [← ror_eq_rotateRight _ _ (by decide)]
  rfl

/-- R181: the round key of the next iteration. -/
theorem scheduleVars_succ_rk (key : Vector Byte 16) (i : Nat) :
    (scheduleVars key (i + 1)).rk = (scheduleVars key i).rk.rotateLeft 3 ^^^ (scheduleVars key (i + 1)).a := by
  rw [← rol_eq_rotateLeft _ _ (by decide)]
  rfl

/-! ### The round keys are the values of the loop's variable -/

/-- The `n` round keys that the model computes from iteration `i` on. -/
theorem roundKeysFrom_scheduleVars (key : Vector Byte 16) (i n : Nat) :
    roundKeysFrom (scheduleVars key i).a (scheduleVars key i).rk i n =
      (List.range' (i + 1) n).map fun j => (scheduleVars key j).rk := by
  induction n generalizing i with
  | zero => rfl
  | succ n ih =>
    rw [List.range'_succ, List.map_cons, ← ih]
    rfl

/-- R181: the 32 round keys are the loop's round key at 0 to 31. -/
theorem roundKeyList_eq_map (key : Vector Byte 16) :
    roundKeyList key = (List.range 32).map fun j => (scheduleVars key j).rk := by
  rw [List.range_eq_range', List.range'_succ, List.map_cons, ← roundKeysFrom_scheduleVars]
  rfl

/-- R181: round key `i` of the schedule. -/
theorem keySchedule_getElem (key : Vector Byte 16) (i : Nat) (h : i < 32) :
    (keySchedule key)[i] = (scheduleVars key i).rk := by
  simp [keySchedule, roundKeyList_eq_map]

/-- Settles O22: the accumulator is the loop's, each round key the loop's round key, and the two recurrences are one
iteration. -/
theorem keyScheduleFollowsItsRecurrence : Obligations.KeyScheduleFollowsItsRecurrence := by
  intro key
  refine ⟨fun i => (scheduleVars key i).a, ?low, keyHigh_toNat key, fun i h => ?iteration⟩
  case low =>
    rw [keySchedule_getElem]
    exact keyLow_toNat key
  case iteration =>
    rw [keySchedule_getElem key i (by omega), keySchedule_getElem key (i + 1) (by omega)]
    exact ⟨scheduleVars_succ_a key i, scheduleVars_succ_rk key i⟩

end Sys2Proof.Proofs
end

section
/-! SUPPORT. The block cipher (spec/42_block_cipher.md R200 to R202): a round and its inverse on words, the block between
two rounds as a sequence, what ENCB and DECB leave unchanged, and the obligations O27 to O29. -/

namespace Sys2Proof.Proofs

open Sys2Proof Sys2Proof.Machine Sys2Proof.Claims

/-! ### Rotations -/

/-- R11: rotation to the right undoes rotation to the left. -/
theorem ror_rol (v : Word) {r : Nat} (h : r < 64) : ror (rol v r) r = v := by
  rw [rol_eq_rotateLeft v r h, ror_eq_rotateRight _ r h]
  ext i hi
  simp only [BitVec.getElem_rotateLeft, BitVec.getElem_rotateRight, Nat.mod_eq_of_lt h]
  split
  case isTrue hlow => rw [dif_neg (by omega)]; simp
  case isFalse hlow => rw [dif_pos (by omega)]; congr 1; omega

/-- R11: rotation to the left undoes rotation to the right. -/
theorem rol_ror (v : Word) {r : Nat} (h : r < 64) : rol (ror v r) r = v := by
  rw [ror_eq_rotateRight v r h, rol_eq_rotateLeft _ r h]
  ext i hi
  simp only [BitVec.getElem_rotateLeft, BitVec.getElem_rotateRight, Nat.mod_eq_of_lt h]
  split
  case isTrue hlow => rw [dif_neg (by omega)]; congr 1; omega
  case isFalse hlow => rw [dif_pos (by omega)]; congr 1; omega

/-! ### One round -/

/-- R200: the words of an encryption round. -/
theorem encRound_words (b : Block) (k : Word) :
    (encRound b k).x = (b.x.rotateRight 8 + b.y) ^^^ k ∧
    (encRound b k).y = b.y.rotateLeft 3 ^^^ (encRound b k).x := by
  rw [← ror_eq_rotateRight _ _ (by decide), ← rol_eq_rotateLeft _ _ (by decide)]
  exact ⟨rfl, rfl⟩

/-- R201: the words of a decryption round. -/
theorem decRound_words (b : Block) (k : Word) :
    (decRound b k).y = (b.y ^^^ b.x).rotateRight 3 ∧
    (decRound b k).x = ((b.x ^^^ k) - (decRound b k).y).rotateLeft 8 := by
  rw [← ror_eq_rotateRight _ _ (by decide), ← rol_eq_rotateLeft _ _ (by decide)]
  exact ⟨rfl, rfl⟩

/-- R202: a decryption round undoes the encryption round with its key: the XOR of the words is ROL(y, 3), and the
subtraction of y leaves ROR(x, 8). -/
theorem decRound_encRound (b : Block) (k : Word) : decRound (encRound b k) k = b := by
  have hy : ror ((encRound b k).y ^^^ (encRound b k).x) Config.beta = b.y := by
    simp only [encRound, BitVec.xor_assoc, BitVec.xor_self, BitVec.xor_zero]
    exact ror_rol b.y (by decide)
  have hx : rol (((encRound b k).x ^^^ k) - b.y) Config.alpha = b.x := by
    simp only [encRound, BitVec.xor_assoc, BitVec.xor_self, BitVec.xor_zero, BitVec.add_sub_cancel]
    exact rol_ror b.x (by decide)
  simp only [decRound, hy, hx]

/-- R202: an encryption round undoes the decryption round with its key: the sum with y is x XOR k, and ROL(y, 3) is
y XOR x. -/
theorem encRound_decRound (b : Block) (k : Word) : encRound (decRound b k) k = b := by
  have hx : (ror (decRound b k).x Config.alpha + (decRound b k).y) ^^^ k = b.x := by
    simp only [decRound, ror_rol _ (show Config.alpha < 64 by decide), BitVec.sub_add_cancel, BitVec.xor_assoc,
      BitVec.xor_self, BitVec.xor_zero]
  have hy : rol (decRound b k).y Config.beta ^^^ b.x = b.y := by
    simp only [decRound, rol_ror _ (show Config.beta < 64 by decide), BitVec.xor_assoc, BitVec.xor_self,
      BitVec.xor_zero]
  simp only [encRound, hx, hy]

/-! ### The rounds of a list of keys -/

/-- R202: the decryption rounds in reverse order undo the encryption rounds. -/
theorem foldr_decRound_foldl_encRound (ks : List Word) (b : Block) :
    ks.foldr (fun k acc => decRound acc k) (ks.foldl encRound b) = b := by
  induction ks generalizing b with
  | nil => rfl
  | cons k ks ih => rw [List.foldl_cons, List.foldr_cons, ih, decRound_encRound]

/-- R202: the encryption rounds undo the decryption rounds in reverse order. -/
theorem foldl_encRound_foldr_decRound (ks : List Word) (b : Block) :
    ks.foldl encRound (ks.foldr (fun k acc => decRound acc k) b) = b := by
  induction ks with
  | nil => rfl
  | cons k ks ih => rw [List.foldr_cons, List.foldl_cons, encRound_decRound, ih]

theorem decrypt_encrypt (rk : Vector Word 32) (b : Block) : decrypt rk (encrypt rk b) = b :=
  foldr_decRound_foldl_encRound rk.toList b

theorem encrypt_decrypt (rk : Vector Word 32) (b : Block) : encrypt rk (decrypt rk b) = b :=
  foldl_encRound_foldr_decRound rk.toList b

/-- Settles O29: the round law, lifted to the rounds of the key list; Decrypt is then the two-sided inverse of Encrypt. -/
theorem encryptAndDecryptAreInverse : Obligations.EncryptAndDecryptAreInverse :=
  ⟨fun b k => ⟨decRound_encRound b k, encRound_decRound b k⟩, fun rk =>
    ⟨decrypt_encrypt rk, encrypt_decrypt rk,
      Function.bijective_iff_has_inverse.2 ⟨decrypt rk, decrypt_encrypt rk, encrypt_decrypt rk⟩⟩⟩

/-! ### The block between two rounds -/

/-- R200: the block on entry to encryption round `i`; at 32 the result. -/
def encBlockAt (rk : Vector Word 32) (b : Block) (i : Nat) : Block := (rk.toList.take i).foldl encRound b

theorem encBlockAt_32 (rk : Vector Word 32) (b : Block) : encBlockAt rk b 32 = encrypt rk b := by
  rw [encBlockAt, List.take_of_length_le (by simp), encrypt]

/-- R200: encryption round `i` uses RK[i]. -/
theorem encBlockAt_succ (rk : Vector Word 32) (b : Block) {i : Nat} (h : i < 32) :
    encBlockAt rk b (i + 1) = encRound (encBlockAt rk b i) rk[i] := by
  rw [encBlockAt, ← List.take_concat_get' _ i (by simpa using h), List.foldl_concat]
  rfl

/-- R201: the block after decryption round `i`, the rounds running from 31 down; at 32 the argument. -/
def decBlockAt (rk : Vector Word 32) (b : Block) (i : Nat) : Block :=
  (rk.toList.drop i).foldr (fun k acc => decRound acc k) b

theorem decBlockAt_32 (rk : Vector Word 32) (b : Block) : decBlockAt rk b 32 = b := by
  rw [decBlockAt, List.drop_of_length_le (by simp), List.foldr_nil]

/-- R201: decryption round `i` uses RK[i]. -/
theorem decBlockAt_eq_decRound (rk : Vector Word 32) (b : Block) {i : Nat} (h : i < 32) :
    decBlockAt rk b i = decRound (decBlockAt rk b (i + 1)) rk[i] := by
  rw [decBlockAt, List.drop_eq_getElem_cons (by simpa using h), List.foldr_cons]
  rfl

/-- R200: Encrypt as recurrences on the two words, from round 0 up. -/
theorem encrypt_rounds (rk : Vector Word 32) (b : Block) : ∃ x y : Nat → Word,
    x 0 = b.x ∧ y 0 = b.y ∧
    (∀ (i : Nat) (h : i < 32), x (i + 1) = ((x i).rotateRight 8 + y i) ^^^ rk[i] ∧
      y (i + 1) = (y i).rotateLeft 3 ^^^ x (i + 1)) ∧
    (encrypt rk b).x = x 32 ∧ (encrypt rk b).y = y 32 := by
  refine ⟨fun i => (encBlockAt rk b i).x, fun i => (encBlockAt rk b i).y, rfl, rfl, fun i h => ?round, ?x, ?y⟩
  case round =>
    simp only [encBlockAt_succ rk b h]
    exact encRound_words _ _
  case x | y => simp only [encBlockAt_32]

/-- R201: Decrypt as recurrences on the two words, from round 31 down. -/
theorem decrypt_rounds (rk : Vector Word 32) (b : Block) : ∃ x y : Nat → Word,
    x 32 = b.x ∧ y 32 = b.y ∧
    (∀ (i : Nat) (h : i < 32), y i = (y (i + 1) ^^^ x (i + 1)).rotateRight 3 ∧
      x i = ((x (i + 1) ^^^ rk[i]) - y i).rotateLeft 8) ∧
    (decrypt rk b).x = x 0 ∧ (decrypt rk b).y = y 0 := by
  refine ⟨fun i => (decBlockAt rk b i).x, fun i => (decBlockAt rk b i).y, ?x, ?y, fun i h => ?round, rfl, rfl⟩
  case round =>
    simp only [decBlockAt_eq_decRound rk b h]
    exact decRound_words _ _
  case x | y => simp only [decBlockAt_32]

/-! ### ENCB and DECB -/

/-- The completion of ENCB and DECB (R205, R206): the keys ensured, then `b` in the block registers. -/
def blockDone (b : Block) (s : State) : State := finish (setBlk b (ensureKs s))

/-- R205: ENCB completes with Encrypt of the block registers under the ensured keys. -/
theorem exec_encb (s : State) :
    exec .encb s = .next (blockDone (encrypt (ensureKs s).rk ⟨s.blkX, s.blkY⟩) s) := by
  rw [← ensureKs_blkX s, ← ensureKs_blkY s]
  rfl

/-- R206: DECB completes with Decrypt of the block registers under the ensured keys. -/
theorem exec_decb (s : State) :
    exec .decb s = .next (blockDone (decrypt (ensureKs s).rk ⟨s.blkX, s.blkY⟩) s) := by
  rw [← ensureKs_blkX s, ← ensureKs_blkY s]
  rfl

/-- R205, R206: besides the block registers only the keys and the completion change. -/
theorem blockDone_frame (b : Block) (s : State) :
    KeysEnsured s (blockDone b s) ∧ Completed s (blockDone b s) ∧ BuffersKept s (blockDone b s) ∧
      (blockDone b s).padErr = s.padErr := by
  simp [blockDone, KeysEnsured, Completed, BuffersKept, ensureKs_rk]

/-- Settles O27: ENCB stores Encrypt of the block registers, and Encrypt is its rounds. -/
theorem encbRunsTheEncryptionRounds : Obligations.EncbRunsTheEncryptionRounds := by
  intro s
  obtain ⟨x, y, hx0, hy0, hround, hx32, hy32⟩ := encrypt_rounds (ensureKs s).rk ⟨s.blkX, s.blkY⟩
  exact ⟨_, x, y, exec_encb s, hx0, hy0, hround, hx32, hy32, blockDone_frame _ s⟩

/-- Settles O28: DECB stores Decrypt of the block registers, and Decrypt is its rounds. -/
theorem decbRunsTheDecryptionRounds : Obligations.DecbRunsTheDecryptionRounds := by
  intro s
  obtain ⟨x, y, hx32, hy32, hround, hx0, hy0⟩ := decrypt_rounds (ensureKs s).rk ⟨s.blkX, s.blkY⟩
  exact ⟨_, x, y, exec_decb s, hx32, hy32, hround, hx0, hy0, blockDone_frame _ s⟩

end Sys2Proof.Proofs
end

section
/-! SUPPORT. Padding (spec/43_cbc_chainer.md R222 to R224): the pad length and the pad value as numbers, the padded
message byte by byte, and the obligation O32. -/

namespace Sys2Proof.Proofs

open Sys2Proof Sys2Proof.Machine Sys2Proof.Claims

/-! ### PadLen and PadVal -/

/-- R222: the pad value is what is missing to the next multiple of 16. -/
theorem padVal_eq (n : Nat) : padVal n = (16 - n % 16) % 16 := by
  unfold padVal padLen; omega

theorem padLen_eq_add_padVal (n : Nat) : padLen n = n + padVal n := by
  unfold padVal padLen; omega

/-! ### The padded message -/

/-- R223: the fill follows the message. -/
theorem take_padBytes (S : Bytes) : (padBytes S).take S.length = S := List.take_left' rfl

/-- R223: every byte of the fill is the pad value, which one byte holds. -/
theorem padBytes_getElem_toNat (S : Bytes) (k : Nat) (h : k < (padBytes S).length) (hk : S.length ≤ k) :
    (padBytes S)[k].toNat = padVal S.length := by
  have hval := padVal_eq S.length
  have hbyte : (padBytes S)[k] = BitVec.ofNat 8 (padVal S.length) := by
    simp only [padBytes]
    rw [List.getElem_append_right hk, List.getElem_replicate]
  rw [hbyte, BitVec.toNat_ofNat]
  omega

/-- R224: a length that is a multiple of 16 is left alone. -/
theorem padBytes_of_multiple (S : Bytes) (h : S.length % 16 = 0) : padBytes S = S := by
  have hval : padVal S.length = 0 := by rw [padVal_eq, h]
  simp [padBytes, hval]

/-- Settles O32: the lengths are arithmetic on `padVal`, the bytes are those of the message and of its fill. -/
theorem padFillsToTheNextMultipleOfSixteen : Obligations.PadFillsToTheNextMultipleOfSixteen := by
  intro S
  have hlen : (padBytes S).length = padLen S.length := padBytes_length S
  have hadd := padLen_eq_add_padVal S.length
  have hval := padVal_eq S.length
  refine ⟨by omega, by omega, by omega, take_padBytes S, fun k h hk => ?fill, hlen, rfl, by omega, by omega,
    padBytes_of_multiple S⟩
  case fill =>
    rw [padBytes_getElem_toNat S k h hk]
    omega

end Sys2Proof.Proofs
end

section
/-! SUPPORT. CBC chaining (spec/43_cbc_chainer.md R233, R235, R239): the blocks of a byte sequence, CbcEnc and CbcDec
block by block, CbcDec as the inverse of CbcEnc, and the obligations O38 and O39. -/

namespace Sys2Proof.Proofs

open Sys2Proof Sys2Proof.Machine Sys2Proof.Claims

/-! ### Blocks of a byte sequence -/

theorem blockAt_zero (s : Bytes) : blockAt s 0 = s.take 16 := rfl

theorem blockAt_drop (s : Bytes) (j : Nat) : blockAt (s.drop 16) j = blockAt s (j + 1) := by
  rw [blockAt, blockAt, List.drop_drop, Nat.mul_succ, Nat.add_comm]

theorem blockAt_append_zero {b : Bytes} (s : Bytes) (h : b.length = 16) : blockAt (b ++ s) 0 = b :=
  List.take_left' h

theorem blockAt_append_succ {b : Bytes} (s : Bytes) (j : Nat) (h : b.length = 16) :
    blockAt (b ++ s) (j + 1) = blockAt s j := by
  rw [← blockAt_drop, List.drop_left' h]

theorem take_append_blocks {b : Bytes} (s : Bytes) (j : Nat) (h : b.length = 16) :
    (b ++ s).take (16 * (j + 1)) = b ++ s.take (16 * j) := by
  rw [Nat.mul_succ, Nat.add_comm, ← h, List.take_length_add_append]

/-! ### CbcEnc -/

/-- R233: CbcEnc of `n` whole blocks, the IV in front. -/
theorem cbcEnc_of_length (rk : Vector Word 32) {P : Bytes} {n : Nat} (iv : Bytes) (hP : P.length = 16 * n) :
    cbcEnc rk P iv = (iv ++ (cbcEncBlocks rk n P iv).1, (cbcEncBlocks rk n P iv).2) := by
  rw [cbcEnc, hP, Nat.mul_div_cancel_left n (by decide)]

theorem cbcEnc_length (rk : Vector Word 32) {P iv : Bytes} {n : Nat} (hP : P.length = 16 * n) (hiv : iv.length = 16) :
    (cbcEnc rk P iv).1.length = 16 * (n + 1) := by
  rw [cbcEnc_of_length rk iv hP, List.length_append, cbcEncBlocks_length, hiv, Nat.mul_succ, Nat.add_comm]

/-- R233: behind its chaining value, each output block is the encryption of the input block XORed with the output block
before it, and the last chaining value is the last of these blocks. -/
theorem cbcEncBlocks_chain (rk : Vector Word 32) (n : Nat) (p cv : Bytes) (h : cv.length = 16) :
    (∀ j < n, blockAt (cv ++ (cbcEncBlocks rk n p cv).1) (j + 1) =
      encBytes rk (xorBytes (blockAt p j) (blockAt (cv ++ (cbcEncBlocks rk n p cv).1) j))) ∧
    (cbcEncBlocks rk n p cv).2 = blockAt (cv ++ (cbcEncBlocks rk n p cv).1) n := by
  induction n generalizing p cv with
  | zero => exact ⟨fun j hj => absurd hj j.not_lt_zero, (blockAt_append_zero _ h).symm⟩
  | succ n ih =>
    have hc := encBytes_length rk (xorBytes (p.take 16) cv)
    obtain ⟨hblocks, hlast⟩ := ih (p.drop 16) _ hc
    simp only [cbcEncBlocks, blockAt_append_succ _ _ h]
    refine ⟨fun j hj => ?_, hlast⟩
    cases j with
    | zero => rw [blockAt_append_zero _ h, blockAt_append_zero _ hc, blockAt_zero]
    | succ j => rw [blockAt_append_succ _ _ h, hblocks j (by omega), blockAt_drop]

/-- R233: the first `j` output blocks do not depend on how many follow. -/
theorem take_cbcEncBlocks (rk : Vector Word 32) {j n : Nat} (p cv : Bytes) (h : j ≤ n) :
    (cbcEncBlocks rk n p cv).1.take (16 * j) = (cbcEncBlocks rk j p cv).1 := by
  induction j generalizing n p cv with
  | zero => rfl
  | succ j ih =>
    obtain ⟨n, rfl⟩ := Nat.exists_eq_add_one_of_ne_zero (show n ≠ 0 by omega)
    simp only [cbcEncBlocks, take_append_blocks _ _ (encBytes_length rk _), ih _ _ (Nat.le_of_succ_le_succ h)]

/-- R233: `j` output blocks depend on the first `j` input blocks only. -/
theorem cbcEncBlocks_take (rk : Vector Word 32) (j : Nat) (p cv : Bytes) :
    cbcEncBlocks rk j (p.take (16 * j)) cv = cbcEncBlocks rk j p cv := by
  induction j generalizing p cv with
  | zero => rfl
  | succ j ih =>
    have hfirst : (p.take (16 * (j + 1))).take 16 = p.take 16 := by
      rw [List.take_take, Nat.min_eq_left (by omega)]
    have hrest : (p.take (16 * (j + 1))).drop 16 = (p.drop 16).take (16 * j) := by
      rw [List.drop_take, Nat.mul_succ, Nat.add_sub_cancel]
    simp only [cbcEncBlocks, hfirst, hrest, ih]

/-- R233: the IV and the first `j` ciphertext blocks are made from the IV and the first `j` plaintext blocks. -/
theorem take_cbcEnc (rk : Vector Word 32) {P iv : Bytes} {n j : Nat} (hP : P.length = 16 * n) (hiv : iv.length = 16)
    (hj : j ≤ n) :
    (cbcEnc rk P iv).1.take (16 * (j + 1)) = iv ++ (cbcEncBlocks rk j (P.take (16 * j)) iv).1 := by
  rw [cbcEnc_of_length rk iv hP, take_append_blocks _ j hiv, take_cbcEncBlocks rk P iv hj, cbcEncBlocks_take]

/-- Settles O38: the chain of `cbcEncBlocks` with the IV in front, and what its first blocks depend on, at both messages. -/
theorem cbcEncChainsEveryBlock : Obligations.CbcEncChainsEveryBlock := by
  refine ⟨fun rk P iv n hP hiv => ?chain, fun rk P Q iv m n j hP hQ hiv hm hn hPQ => ?dependence⟩
  case chain =>
    obtain ⟨hblocks, hlast⟩ := cbcEncBlocks_chain rk n P iv hiv
    refine ⟨cbcEnc_length rk hP hiv, ?_⟩
    rw [cbcEnc_of_length rk iv hP]
    exact ⟨blockAt_append_zero _ hiv, hblocks, hlast⟩
  case dependence =>
    rw [take_cbcEnc rk hP hiv hm, take_cbcEnc rk hQ hiv hn, hPQ]

/-! ### CbcDec -/

/-- R235: each output block is the decrypted ciphertext block XORed with the ciphertext block before it, the first one
with the chaining value, and the last chaining value is the last ciphertext block. -/
theorem cbcDecBlocks_chain (rk : Vector Word 32) (n : Nat) (c cv : Bytes) (hc : 16 * n ≤ c.length)
    (hcv : cv.length = 16) :
    (∀ j < n, blockAt (cbcDecBlocks rk n c cv).1 j =
      xorBytes (decBytes rk (blockAt (cv ++ c) (j + 1))) (blockAt (cv ++ c) j)) ∧
    (cbcDecBlocks rk n c cv).2 = blockAt (cv ++ c) n := by
  induction n generalizing c cv with
  | zero => exact ⟨fun j hj => absurd hj j.not_lt_zero, (blockAt_append_zero _ hcv).symm⟩
  | succ n ih =>
    have hfirst : (c.take 16).length = 16 := by rw [List.length_take]; omega
    have hplain : (xorBytes (decBytes rk (c.take 16)) cv).length = 16 := by simp [hcv]
    obtain ⟨hblocks, hlast⟩ := ih (c.drop 16) (c.take 16) (by rw [List.length_drop]; omega) hfirst
    rw [List.take_append_drop] at hblocks hlast
    simp only [cbcDecBlocks, blockAt_append_succ _ _ hcv]
    refine ⟨fun j hj => ?_, hlast⟩
    cases j with
    | zero => rw [blockAt_append_zero _ hplain, blockAt_append_zero _ hcv, blockAt_zero]
    | succ j => rw [blockAt_append_succ _ _ hplain, blockAt_append_succ _ _ hcv, hblocks j (by omega)]

/-- R235: CbcDec of `n` blocks behind the IV. -/
theorem cbcDec_of_length (rk : Vector Word 32) {C : Bytes} {n : Nat} (hC : C.length = 16 * (n + 1)) :
    cbcDec rk C = cbcDecBlocks rk n (C.drop 16) (C.take 16) := by
  have hn : (C.length - 16) / 16 = n := by omega
  rw [cbcDec, hn]

theorem cbcDec_length (rk : Vector Word 32) {C : Bytes} {n : Nat} (hC : C.length = 16 * (n + 1)) :
    (cbcDec rk C).1.length = 16 * n := by
  rw [cbcDec_of_length rk hC]
  exact cbcDecBlocks_length rk n _ _ (by rw [List.length_drop]; omega) (by rw [List.length_take]; omega)

/-- Settles O39: the chain of `cbcDecBlocks` with the first block, the IV, as its chaining value. -/
theorem cbcDecUnchainsEveryBlock : Obligations.CbcDecUnchainsEveryBlock := by
  intro rk C n hC
  have hchain := cbcDecBlocks_chain rk n (C.drop 16) (C.take 16) (by rw [List.length_drop]; omega)
    (by rw [List.length_take]; omega)
  rw [List.take_append_drop] at hchain
  exact ⟨cbcDec_length rk hC, by rwa [cbcDec_of_length rk hC]⟩

/-! ### CbcDec undoes CbcEnc -/

/-- R204: DecBytes undoes EncBytes on 16 bytes. -/
theorem decBytes_encBytes (rk : Vector Word 32) {S : Bytes} (h : S.length = 16) : decBytes rk (encBytes rk S) = S := by
  rw [decBytes, encBytes, blockOf_unblock, decrypt_encrypt, unblock_blockOf S h]

theorem xorBytes_xorBytes_cancel {s t : Bytes} (h : s.length ≤ t.length) : xorBytes (xorBytes s t) t = s := by
  apply List.ext_getElem
  · simp [h]
  · intro k _ _
    simp [xorBytes]

/-- R239, block by block: decryption takes off the cipher and then the same chaining value that encryption put on. -/
theorem cbcDecBlocks_cbcEncBlocks (rk : Vector Word 32) (n : Nat) (p cv : Bytes) (hp : p.length = 16 * n)
    (hcv : cv.length = 16) : (cbcDecBlocks rk n (cbcEncBlocks rk n p cv).1 cv).1 = p := by
  induction n generalizing p cv with
  | zero => exact (List.length_eq_zero_iff.1 hp).symm
  | succ n ih =>
    have hfirst : (p.take 16).length = 16 := by rw [List.length_take]; omega
    have hx : (xorBytes (p.take 16) cv).length = 16 := by simp [hfirst, hcv]
    have hc := encBytes_length rk (xorBytes (p.take 16) cv)
    simp only [cbcEncBlocks, cbcDecBlocks, List.take_left' hc, List.drop_left' hc]
    rw [decBytes_encBytes rk hx, xorBytes_xorBytes_cancel (by omega),
      ih (p.drop 16) _ (by rw [List.length_drop]; omega) hc, List.take_append_drop]

/-- R239: CbcDec undoes CbcEnc, whatever the keys and the IV. -/
theorem cbcDec_cbcEnc (rk : Vector Word 32) {P iv : Bytes} (hP : P.length % 16 = 0) (hiv : iv.length = 16) :
    (cbcDec rk (cbcEnc rk P iv).1).1 = P := by
  obtain ⟨n, hn⟩ : ∃ n, P.length = 16 * n := Nat.dvd_of_mod_eq_zero hP
  rw [cbcDec_of_length rk (cbcEnc_length rk hn hiv), cbcEnc_of_length rk iv hn, List.take_left' hiv, List.drop_left' hiv]
  exact cbcDecBlocks_cbcEncBlocks rk n P iv hn hiv

end Sys2Proof.Proofs
end

section
/-! SUPPORT. The buffer commands of the CBC chainer on a source that holds a message (spec/43_cbc_chainer.md R225, R231,
R236, R240, R241): what each hands on to the next command, and the obligation O42 (R242). -/

namespace Sys2Proof.Proofs

open Sys2Proof Sys2Proof.Machine Sys2Proof.Claims

/-! ### The completion of a buffer command -/

/-- The state in which a buffer command ends (R158): `out` in `BUF[d]` and its length in LEN[d] of the effect's state `u`,
then the completion. -/
def stored (d : Buf) (out : Bytes) (u : State) : State :=
  finish ((u.bufWrite d 0 out).setLen d (BitVec.ofNat 64 out.length))

@[simp] theorem stored_padErr (d : Buf) (out : Bytes) (u : State) : (stored d out u).padErr = u.padErr := by
  simp [stored]

@[simp] theorem stored_cfg (d : Buf) (out : Bytes) (u : State) : (stored d out u).cfg = u.cfg := by simp [stored]

@[simp] theorem stored_rk (d : Buf) (out : Bytes) (u : State) : (stored d out u).rk = u.rk := by simp [stored]

@[simp] theorem stored_ksValid (d : Buf) (out : Bytes) (u : State) : (stored d out u).ksValid = u.ksValid := by
  simp [stored]

/-- R158: of the buffers and lengths, storing changes `BUF[d][0..|out|)` and LEN[d] only. -/
theorem stored_storedOnly (d : Buf) {out : Bytes} (u : State) (hout : out.length < 2 ^ 64) :
    StoredOnly u (stored d out u) d out := by
  refine ⟨?length, fun k hk => ?bytes, fun c hc => ?lengths, fun a ha => ?memory⟩
  case length =>
    rw [stored, finish_len, setLen_len_self, BitVec.toNat_ofNat, Nat.mod_eq_of_lt hout]
  case bytes =>
    have hbyte := byteAt_bufWrite_inside u d 0 out k hk
    simpa [stored, State.byteAt] using hbyte
  case lengths =>
    rw [stored, finish_len, setLen_len_other _ _ _ _ hc, bufWrite_len]
  case memory =>
    rw [stored, finish_mem, setLen_mem, get_bufWrite_outside u d 0 a out ha]

/-- The destination of a command is a source that holds the output. -/
theorem holds_of_storedOnly {s t : State} {d : Buf} {out : Bytes} (h : StoredOnly s t d out) : t.Holds d out := by
  obtain ⟨hlen, hbytes, -, -⟩ := h
  exact ⟨hlen.symm, hbytes⟩

/-- A command went from `s` to `t` and handed `out` on in `BUF[d]`; PADERR and the build parameters stayed. -/
structure HandsOn (s t : State) (d : Buf) (out : Bytes) : Prop where
  holds : t.Holds d out
  padErr : t.padErr = s.padErr
  cfg : t.cfg = s.cfg

theorem HandsOn.trans {s t u : State} {c d : Buf} {S T : Bytes} (h : HandsOn s t c S) (h' : HandsOn t u d T) :
    HandsOn s u d T :=
  ⟨h'.holds, h'.padErr.trans h.padErr, h'.cfg.trans h.cfg⟩

theorem stored_handsOn {s u : State} (d : Buf) {out : Bytes} (hpad : u.padErr = s.padErr) (hcfg : u.cfg = s.cfg)
    (hout : out.length < 2 ^ 64) : HandsOn s (stored d out u) d out :=
  ⟨holds_of_storedOnly (stored_storedOnly d u hout), by rw [stored_padErr, hpad], by rw [stored_cfg, hcfg]⟩

/-! ### Unpad -/

/-- R240: a claim of at most 16 and at most the length is stripped. -/
theorem unpadLen_of_le {S : Bytes} (h16 : lastByte S ≤ 16) (hlen : lastByte S ≤ S.length) :
    unpadLen S = (S.length - lastByte S, true) :=
  (if_neg h16.not_gt).trans (if_neg hlen.not_gt)

/-- R240: a claim above 16 is invalid and nothing is stripped. -/
theorem unpadLen_of_gt {S : Bytes} (h : 16 < lastByte S) : unpadLen S = (S.length, false) :=
  if_pos h

/-- R223, R240: the last byte of a message that got a fill is its pad value. -/
theorem lastByte_padBytes {p : Bytes} (h : p.length % 16 ≠ 0) : lastByte (padBytes p) = padVal p.length := by
  have hval := padVal_eq p.length
  have hlen : (padBytes p).length = p.length + padVal p.length := by rw [padBytes_length, padLen_eq_add_padVal]
  have hne : padBytes p ≠ [] := List.ne_nil_of_length_pos (by omega)
  rw [lastByte, List.getLastD_eq_getLast?, List.getLast?_eq_getLast_of_ne_nil hne, Option.getD_some,
    List.getLast_eq_getElem]
  exact padBytes_getElem_toNat p _ _ (by omega)

/-! ### Each command on a source that holds a message -/

section
variable {s : State} {src dst : BitVec 2} {b d : Buf} {S : Bytes}

/-- R225: PAD hands the padded message on. -/
theorem pad_handsOn (hwf : s.cfg.wf) (hb : bufOf src = some b) (hd : bufOf dst = some d) (hS : s.Holds b S)
    (hmax : padLen S.length ≤ s.cfg.maxSize) :
    ∃ t, exec (.pad src dst) s = .next t ∧ HandsOn s t d (padBytes S) := by
  obtain ⟨-, -, hsize, -⟩ := hwf
  have hlen : S.length = (s.len b).toNat := hS.1
  have hadd := padLen_eq_add_padVal S.length
  have hout : (padBytes S).length < 2 ^ 64 := by rw [padBytes_length]; omega
  exact ⟨_, bufferCommand_of_holds hb hd (decide_eq_true (by omega)) hS, stored_handsOn d rfl rfl hout⟩

/-- R230, R231: CBCENC is `cbcencWith` some IV, drawn or injected, after ENSURE_KS. -/
theorem exec_cbcenc_of_holds (inj : Bool) (hb : bufOf src = some b) (hd : bufOf dst = some d) (hS : s.Holds b S)
    (hblocks : S.length % 16 = 0) (hmax : S.length + 16 ≤ s.cfg.maxSize) :
    ∃ iv u, exec (if inj = true then .cbcencInj src dst else .cbcenc src dst) s =
        .next (stored d (cbcencWith iv S u).1 (cbcencWith iv S u).2) ∧
      iv.length = 16 ∧ u.ksValid = true ∧ u.padErr = s.padErr ∧ u.cfg = s.cfg := by
  have hlen : S.length = (s.len b).toNat := hS.1
  have hok : lenOkCbcenc s.cfg (s.len b) = true := decide_eq_true (by omega)
  cases inj with
  | true =>
    exact ⟨injectedIv (ensureKs s), ensureKs s, bufferCommand_of_holds hb hd hok hS, injectedIv_length _,
      ensureKs_ksValid s, ensureKs_padErr s, ensureKs_cfg s⟩
  | false =>
    exact ⟨drawnIvBytes (ensureKs s).draws, { ensureKs s with draws := (ensureKs s).draws + 1 },
      bufferCommand_of_holds hb hd hok hS, drawnIvBytes_length _, ensureKs_ksValid s, ensureKs_padErr s, ensureKs_cfg s⟩

/-- R231: CBCENC with either IV hands on a ciphertext under the round keys that it leaves valid. -/
theorem cbcenc_handsOn (inj : Bool) (hwf : s.cfg.wf) (hb : bufOf src = some b) (hd : bufOf dst = some d)
    (hS : s.Holds b S) (hblocks : S.length % 16 = 0) (hmax : S.length + 16 ≤ s.cfg.maxSize) :
    ∃ t iv, exec (if inj = true then .cbcencInj src dst else .cbcenc src dst) s = .next t ∧ iv.length = 16 ∧
      HandsOn s t d (cbcEnc t.rk S iv).1 ∧ t.ksValid = true := by
  obtain ⟨-, -, hsize, -⟩ := hwf
  obtain ⟨n, hn⟩ : ∃ n, S.length = 16 * n := Nat.dvd_of_mod_eq_zero hblocks
  obtain ⟨iv, u, hexec, hiv, hks, hpad, hcfg⟩ := exec_cbcenc_of_holds inj hb hd hS hblocks hmax
  have hout : (cbcEnc u.rk S iv).1.length < 2 ^ 64 := by rw [cbcEnc_length _ hn hiv]; omega
  refine ⟨_, iv, hexec, hiv, ?_, (stored_ksValid _ _ _).trans hks⟩
  rw [stored_rk]
  exact stored_handsOn d hpad hcfg hout

/-- R236: CBCDEC hands the plaintext on, decrypted with the round keys that were valid before. -/
theorem cbcdec_handsOn (hwf : s.cfg.wf) (hks : s.ksValid = true) (hb : bufOf src = some b) (hd : bufOf dst = some d)
    (hS : s.Holds b S) {n : Nat} (hn : S.length = 16 * (n + 1)) (hmax : S.length ≤ s.cfg.maxSize) :
    ∃ t, exec (.cbcdec src dst) s = .next t ∧ HandsOn s t d (cbcDec s.rk S).1 := by
  obtain ⟨-, -, hsize, -⟩ := hwf
  have hlen : S.length = (s.len b).toNat := hS.1
  have heff : cbcdecEffect S s = ((cbcDec s.rk S).1, { s with cv := blockOf (cbcDec s.rk S).2 }) := by
    rw [cbcdecEffect, ensureKs_of_valid s hks]
  have hout : (cbcDec s.rk S).1.length < 2 ^ 64 := by rw [cbcDec_length _ hn]; omega
  have hexec : exec (.cbcdec src dst) s = .next (stored d (cbcdecEffect S s).1 (cbcdecEffect S s).2) :=
    bufferCommand_of_holds hb hd (decide_eq_true (by omega)) hS
  rw [heff] at hexec
  exact ⟨_, hexec, stored_handsOn d rfl rfl hout⟩

/-- R240, R241: UNPAD strips a claim of at most 16 and at most the length, and keeps the bytes but sets PADERR under one
above 16. -/
theorem unpad_holds (hwf : s.cfg.wf) (hb : bufOf src = some b) (hd : bufOf dst = some d) (hS : s.Holds b S)
    (hmin : 1 ≤ S.length) (hmax : S.length ≤ s.cfg.maxSize) :
    ∃ t, exec (.unpad src dst) s = .next t ∧
      (lastByte S ≤ 16 → lastByte S ≤ S.length →
        t.Holds d (S.take (S.length - lastByte S)) ∧ t.padErr = s.padErr) ∧
      (16 < lastByte S → t.Holds d S ∧ t.padErr = true) := by
  obtain ⟨-, -, hsize, -⟩ := hwf
  have hlen : S.length = (s.len b).toNat := hS.1
  have hexec : exec (.unpad src dst) s = .next (stored d (unpadEffect S s).1 (unpadEffect S s).2) :=
    bufferCommand_of_holds hb hd (decide_eq_true (by omega)) hS
  have hholds : (stored d (unpadEffect S s).1 (unpadEffect S s).2).Holds d (S.take (unpadLen S).1) :=
    holds_of_storedOnly (stored_storedOnly d _ (by simp only [unpadEffect, List.length_take]; omega))
  have hpad : (stored d (unpadEffect S s).1 (unpadEffect S s).2).padErr = (s.padErr || !(unpadLen S).2) :=
    stored_padErr _ _ _
  refine ⟨_, hexec, fun h16 hle => ?valid, fun h => ?invalid⟩
  case valid =>
    rw [unpadLen_of_le h16 hle] at hholds hpad
    exact ⟨hholds, hpad.trans (Bool.or_false _)⟩
  case invalid =>
    rw [unpadLen_of_gt h] at hholds hpad
    rw [List.take_length] at hholds
    exact ⟨hholds, hpad.trans (Bool.or_true _)⟩

end

/-! ### The message round trip -/

/-- R239, R242: PAD, CBCENC, CBCDEC hand the padded message on to UNPAD. -/
theorem pad_cbcenc_cbcdec_handsOn {s : State} {b₀ b₁ b₂ b₃ : BitVec 2} {src d₁ d₂ d₃ : Buf} {p : Bytes} (inj : Bool)
    (hwf : s.cfg.wf) (h₀ : bufOf b₀ = some src) (h₁ : bufOf b₁ = some d₁) (h₂ : bufOf b₂ = some d₂)
    (h₃ : bufOf b₃ = some d₃) (hp : s.Holds src p) (hmax : padLen p.length + 16 ≤ s.cfg.maxSize) :
    ∃ t₁ t₂ t₃, exec (.pad b₀ b₁) s = .next t₁ ∧
      exec (if inj = true then .cbcencInj b₁ b₂ else .cbcenc b₁ b₂) t₁ = .next t₂ ∧
      exec (.cbcdec b₂ b₃) t₂ = .next t₃ ∧ HandsOn s t₃ d₃ (padBytes p) := by
  obtain ⟨n, hn⟩ : ∃ n, (padBytes p).length = 16 * n := ⟨_, padBytes_length p⟩
  have hlen := padBytes_length p
  obtain ⟨t₁, hpad, out₁⟩ := pad_handsOn hwf h₀ h₁ hp (by omega)
  obtain ⟨t₂, iv, henc, hiv, out₂, hks⟩ := cbcenc_handsOn inj (out₁.cfg ▸ hwf) h₁ h₂ out₁.holds (by omega)
    (by rw [out₁.cfg]; omega)
  have out₁₂ := out₁.trans out₂
  have hclen := cbcEnc_length t₂.rk hn hiv
  obtain ⟨t₃, hdec, out₃⟩ := cbcdec_handsOn (out₁₂.cfg ▸ hwf) hks h₂ h₃ out₂.holds hclen (by rw [out₁₂.cfg]; omega)
  rw [cbcDec_cbcEnc t₂.rk (by omega) hiv] at out₃
  exact ⟨t₁, t₂, t₃, hpad, henc, hdec, out₁₂.trans out₃⟩

/-- Settles O42: UNPAD gets the padded message. With a fill its last byte is the pad value and the fill is stripped;
without one the message is its own padding, and its last byte decides. -/
theorem messageRoundTrip : Obligations.MessageRoundTrip := by
  intro s b₀ b₁ b₂ b₃ b₄ src dst p inj hwf hsel₁ hsel₂ hsel₃ h₀ h₄ hp hmin hmax
  obtain ⟨d₁, h₁⟩ := bufOf_of_selects b₁ hsel₁
  obtain ⟨d₂, h₂⟩ := bufOf_of_selects b₂ hsel₂
  obtain ⟨d₃, h₃⟩ := bufOf_of_selects b₃ hsel₃
  obtain ⟨t₁, t₂, t₃, hpad, henc, hdec, out⟩ := pad_cbcenc_cbcdec_handsOn inj hwf h₀ h₁ h₂ h₃ hp hmax
  have hlen : (padBytes p).length = p.length + padVal p.length := by rw [padBytes_length, padLen_eq_add_padVal]
  have hadd := padLen_eq_add_padVal p.length
  obtain ⟨t₄, hunpad, hvalid, hinvalid⟩ := unpad_holds (out.cfg ▸ hwf) h₃ h₄ out.holds (by omega)
    (by rw [out.cfg]; omega)
  rw [out.padErr] at hvalid
  refine ⟨t₁, t₂, t₃, t₄, hpad, henc, hdec, hunpad, fun hfill => ?fill, ?rest⟩
  case fill =>
    have hval := padVal_eq p.length
    rw [lastByte_padBytes hfill, hlen, Nat.add_sub_cancel, take_padBytes] at hvalid
    exact hvalid (by omega) (by omega)
  case rest =>
    refine ⟨fun hno hclaim => ?zero, fun hno hclaim => ?above, fun hno _ hclaim => ?within⟩ <;>
      rw [padBytes_of_multiple p hno] at hvalid hinvalid
    case zero => simpa [hclaim] using hvalid
    case above => exact hinvalid hclaim
    case within => exact hvalid hclaim (by omega)

end Sys2Proof.Proofs
end

section
/-! SUPPORT. The bus-error conditions of spec/60_exceptions.md on plain numbers: which offsets hold a register and which
take no write, what `isBusError` tests, and the obligations O9 (R270) and O8 (R271). -/

namespace Sys2Proof.Proofs

open Sys2Proof Sys2Proof.Machine Sys2Proof.Claims

/-! ### The register map by offset -/

/-- R32: a register answers at its own offset and at no other. -/
theorem regAt_eq_some_iff {o : Nat} {r : Reg} : regAt o = some r ↔ o = regOffset r := by
  constructor
  · exact fun h => (regOffset_of_regAt o r h).symm
  · rintro rfl
    exact regAt_regOffset r

/-- R48: the reserved offsets among the aligned ones. -/
theorem regAt_eq_none_iff {o : Nat} (h8 : o % 8 = 0) :
    regAt o = none ↔ (0x50 ≤ o ∧ o < 0x100) ∨ 0x200 ≤ o := by
  by_cases hlt : o < 0x200
  · have hwindow : ∀ k : Fin 64,
        regAt (8 * k) = none ↔ (0x50 ≤ 8 * k.val ∧ 8 * k.val < 0x100) ∨ 0x200 ≤ 8 * k.val := by
      decide
    have ho : 8 * (o / 8) = o := by omega
    simpa only [ho] using hwindow ⟨o / 8, by omega⟩
  · have hnone : regAt o = none := Option.eq_none_iff_forall_ne_some.2 fun r hr =>
      hlt (regAt_eq_some_iff.1 hr ▸ regOffset_lt r)
    exact iff_of_true hnone (.inr (by omega))

/-- R33, R46: the registers that take no write are the first one and those from 0x100 on. -/
theorem readOnlyReg_iff (r : Reg) : ReadOnlyReg r ↔ regOffset r < 8 ∨ 0x100 ≤ regOffset r := by
  cases r with
  | len b => cases b <;> simp [ReadOnlyReg, regOffset, bufIndex]
  | _ => simp [ReadOnlyReg, regOffset]

/-! ### What each test of `isBusError` says -/

/-- R270 (b) to (d): what an access to the register window must not be. -/
theorem badTarget_register_iff (p : Params) (k : AccessKind) (w o : Nat) :
    badTarget p k w (.register o) = true ↔
      w = 1 ∨ regAt o = none ∨ (k ≠ .read ∧ ∃ r, regAt o = some r ∧ ReadOnlyReg r) := by
  cases hr : regAt o with
  | none => simp [badTarget, hr]
  | some r => cases r <;> cases k <;> simp [badTarget, hr, ReadOnlyReg]

/-- R270 (b) to (d) at an aligned offset, as numbers. -/
theorem badTarget_register_aligned_iff (p : Params) (k : AccessKind) (w : Nat) {o : Nat} (h8 : o % 8 = 0) :
    badTarget p k w (.register o) = true ↔
      w = 1 ∨ ((0x50 ≤ o ∧ o < 0x100) ∨ 0x200 ≤ o) ∨ (k ≠ .read ∧ (o < 8 ∨ (0x100 ≤ o ∧ o < 0x200))) := by
  rw [badTarget_register_iff, regAt_eq_none_iff h8]
  have hreadOnly : (∃ r, regAt o = some r ∧ ReadOnlyReg r) ↔ o < 8 ∨ (0x100 ≤ o ∧ o < 0x200) := by
    constructor
    · rintro ⟨r, hr, hro⟩
      obtain rfl := regAt_eq_some_iff.1 hr
      have hlt := regOffset_lt r
      have hpos := (readOnlyReg_iff r).1 hro
      omega
    · intro ho
      obtain ⟨r, hr⟩ : ∃ r, regAt o = some r := by
        rw [← Option.ne_none_iff_exists', Ne, regAt_eq_none_iff h8]; omega
      obtain rfl := regAt_eq_some_iff.1 hr
      exact ⟨r, hr, (readOnlyReg_iff r).2 (by omega)⟩
  rw [hreadOnly]

/-- R271: what the register window allows while BUSY = 1. -/
theorem allowedWhileBusy_register_iff (k : AccessKind) (w o : Nat) :
    allowedWhileBusy k w (.register o) = true ↔ w = 8 ∧ (o = 0x10 ∨ (o = 0 ∧ k = .read)) := by
  have hstatus : regAt o = some .status ↔ o = 0x10 := regAt_eq_some_iff
  have hconfig : regAt o = some .config ↔ o = 0 := regAt_eq_some_iff
  rw [← hstatus, ← hconfig]
  cases hr : regAt o with
  | none => simp [allowedWhileBusy, hr]
  | some r => cases r <;> cases k <;> simp [allowedWhileBusy, hr]

/-- R270, R271: `isBusError` test by test, as a proposition. -/
theorem isBusError_eq_true_iff (s : State) (acc : Access) (a : Nat) :
    isBusError s acc a = true ↔
      ¬ (acc.width = 1 ∨ (acc.width = 8 ∧ a % 8 = 0)) ∨
      badTarget s.cfg acc.kind acc.width (targetOf a) = true ∨
      (s.busy = true ∧ ¬ allowedWhileBusy acc.kind acc.width (targetOf a) = true) := by
  simp only [isBusError, badWidth, Bool.or_eq_true, Bool.and_eq_true, decide_eq_true_eq, Bool.not_eq_true',
    Bool.not_eq_true, or_assoc]

/-- R270: `isBusError` is conditions (a) to (f). In the register window (e) is void; in a buffer window (b) to (d) are,
and (f) forbids every access. -/
theorem isBusError_iff_busErrorCondition (s : State) (acc : Access) (hlt : acc.addr - s.cfg.base < 0x40000) :
    isBusError s acc (acc.addr - s.cfg.base) = true ↔ BusErrorCondition s acc := by
  rw [isBusError_eq_true_iff]
  unfold BusErrorCondition
  generalize acc.addr - s.cfg.base = a at hlt ⊢
  refine or_congr_right' fun hwidth => ?_
  rw [not_not] at hwidth
  obtain ⟨hreg, ht⟩ | ⟨b, o, ht, rfl, ho⟩ := targetOf_cases a hlt
  · rw [ht, allowedWhileBusy_register_iff]
    obtain hw1 | ⟨hw8, ha8⟩ := hwidth
    · have hbad := (badTarget_register_iff s.cfg acc.kind acc.width a).2 (.inl hw1)
      exact iff_of_true (.inl hbad) (.inl ⟨hw1, hreg⟩)
    · rw [badTarget_register_aligned_iff _ _ _ ha8]
      have hvoid : ¬ 0x10000 ≤ a := by omega
      simp only [hw8, hreg, hvoid, and_true, false_and, false_or, or_assoc]
  · have hbase : 0x10000 ≤ bufAddr b o := by unfold bufAddr; omega
    have hoffset : bufAddr b o % 0x10000 = o := by unfold bufAddr; omega
    have hbeyond : ∀ n < 0x10000, ¬ bufAddr b o < n ∧ bufAddr b o ≠ n := fun n hn => by omega
    simp [ht, badTarget, allowedWhileBusy, hbase, hoffset, hbeyond, not_lt_of_ge hbase]

/-! ### One step under a bus error -/

/-- R270: the step that takes an access under one of the conditions answers the error and changes nothing. -/
theorem step_of_busErrorCondition {s : State} {acc : Access} {rest : List Event} (hin : s.inputs = .host acc :: rest)
    (hlo : s.cfg.base ≤ acc.addr) (hhi : acc.addr < s.cfg.base + 0x40000) (h : BusErrorCondition s acc) :
    step s = .next { s with inputs := rest, resp := errorAnswer acc } := by
  have haddr : blockAddr s.cfg acc.addr = some (acc.addr - s.cfg.base) := if_pos ⟨hlo, hhi⟩
  have herr : isBusError { s with inputs := rest } acc (acc.addr - s.cfg.base) = true :=
    (isBusError_iff_busErrorCondition s acc (by omega)).2 h
  have hanswer : some (errorResponse acc.kind) = errorAnswer acc := by
    unfold errorAnswer
    cases acc.kind <;> rfl
  rw [step_of_host hin, ← hanswer]
  simp only [hostAccess, haddr, herr, if_true]
  rfl

/-- R270: a step that takes an access under none of the conditions gives no error answer. -/
theorem resp_of_not_busErrorCondition {s t : State} {acc : Access} {rest : List Event}
    (hin : s.inputs = .host acc :: rest) (hlo : s.cfg.base ≤ acc.addr) (hhi : acc.addr < s.cfg.base + 0x40000)
    (h : ¬ BusErrorCondition s acc) (ht : step s = .next t) : ∃ d, t.resp = some ⟨false, d⟩ := by
  have haddr : blockAddr s.cfg acc.addr = some (acc.addr - s.cfg.base) := if_pos ⟨hlo, hhi⟩
  have hok : ¬ isBusError { s with inputs := rest } acc (acc.addr - s.cfg.base) = true := fun herr =>
    h ((isBusError_iff_busErrorCondition s acc (by omega)).1 herr)
  rw [step_of_host hin] at ht
  obtain ⟨hmiss, -⟩ | ⟨a, ha, hcases⟩ := hostAccess_cases acc { s with inputs := rest }
  · exact absurd (haddr.symm.trans hmiss) (by simp)
  obtain rfl : acc.addr - s.cfg.base = a := Option.some.inj (haddr.symm.trans ha)
  obtain ⟨herr, -⟩ | ⟨-, -, ⟨v, -, hread⟩ | ⟨f, -, hfault⟩⟩ | ⟨-, v, -, hwrite⟩ := hcases
  · exact absurd herr hok
  · cases hread.symm.trans ht; exact ⟨some v, rfl⟩
  · cases hfault.symm.trans ht
  · cases hwrite.symm.trans ht; exact ⟨none, rfl⟩

/-! ### The obligations -/

/-- Settles O9: `isBusError` is the conditions (a) to (f), and it alone decides between the error and another answer. -/
theorem busErrorExactlyUnderItsConditions : Obligations.BusErrorExactlyUnderItsConditions :=
  fun _ _ _ hin hlo hhi =>
    ⟨step_of_busErrorCondition hin hlo hhi, fun h _ ht => resp_of_not_busErrorCondition hin hlo hhi h ht⟩

/-- R271: while BUSY = 1 an access that is no read of STATUS or CONFIG and no write to STATUS meets condition (f). -/
theorem busErrorCondition_of_busy {s : State} {acc : Access} (hb : s.busy = true) (hlo : s.cfg.base ≤ acc.addr)
    (hstatus : acc ≠ readAt s 0x10) (hconfig : acc ≠ readAt s 0x0) (hwrite : ∀ v, acc ≠ writeAt s 0x10 v) :
    BusErrorCondition s acc := by
  have hforbidden : ¬ (acc.width = 8 ∧
      (acc.addr - s.cfg.base = 0x10 ∨ (acc.addr - s.cfg.base = 0 ∧ acc.kind = .read))) := by
    obtain ⟨kind, width, addr⟩ := acc
    rintro ⟨rfl, hoff | ⟨hoff, rfl⟩⟩
    · obtain rfl : addr = s.cfg.base + 0x10 := by simp only at hoff hlo; omega
      cases kind with
      | read => exact hstatus rfl
      | write v => exact hwrite v rfl
    · obtain rfl : addr = s.cfg.base + 0x0 := by simp only at hoff hlo; omega
      exact hconfig rfl
  exact .inr (.inr (.inr (.inr (.inr ⟨hb, hforbidden⟩))))

/-- Settles O8: the three allowed accesses are register accesses that need no BUSY = 0; every other one meets condition
(f) of R270. -/
theorem busyBlockAnswersOnlyStatusAndConfig : Obligations.BusyBlockAnswersOnlyStatusAndConfig := by
  intro s acc rest hb hin hlo hhi
  refine ⟨?statusRead, ?configRead, ?statusWrite, ?other⟩
  case statusRead =>
    rintro rfl
    exact step_read_reg (r := .status) rfl (fun _ => .inl rfl) hin
  case configRead =>
    rintro rfl
    exact step_read_reg (r := .config) rfl (fun _ => .inr rfl) hin
  case statusWrite =>
    rintro v rfl
    exact step_write_status hin
  case other =>
    intro hstatus hconfig hwrite
    exact step_of_busErrorCondition hin hlo hhi (busErrorCondition_of_busy hb hlo hstatus hconfig hwrite)

end Sys2Proof.Proofs
end

section
/-! SUPPORT. The decoder on the words of the commands and on the reserved words (spec/30_encoding.md R127, R130): the
obligations O1, O3 and O5. -/

namespace Sys2Proof.Proofs

open Sys2Proof Sys2Proof.Machine Sys2Proof.Claims

/-- Settles O1: the decoder accepts the word of a well-formed command as that command. -/
theorem decodeOfEncodeIsTheCommand : Obligations.DecodeOfEncodeIsTheCommand :=
  fun i hw => (decode_ok_iff (encode i) i).2 ⟨hw, rfl⟩

/-- R126, R127: past the checks that give code 1 the decoder gives code 2 or a command, never code 1. -/
theorem decode_eq_illegalCmd_iff (v : Word) : decode v = .error .illegalCmd ↔ ReservedWord v := by
  refine ⟨fun h => by_contra fun hr => ?_, decode_of_reserved⟩
  by_cases hb : NamesNoBuffer v
  · cases h.symm.trans (decode_of_namesNoBuffer hr hb)
  · obtain ⟨i, hi⟩ := exists_commandOfWord hr
    cases h.symm.trans (decode_of_commandOfWord hr hb hi)

/-- Settles O3: code 1 is for the reserved words, and the issue of one is rejected with it. -/
theorem reservedWordsAreIllegal : Obligations.ReservedWordsAreIllegal := by
  refine fun v => ⟨decode_eq_illegalCmd_iff v, fun hr s => ?_⟩
  exact issue_of_check_error (check_of_decode_error s (decode_of_reserved hr))

/-- Settles O5: twelve closed words. -/
theorem exampleWordsDecode : Obligations.ExampleWordsDecode := by
  unfold Obligations.ExampleWordsDecode
  decide

end Sys2Proof.Proofs
end

section
/-! SUPPORT. All that one step of the whole machine can be (spec/00_scope.md R21, 40_command_interface.md R151 to R159),
said once: a completion, a CMD write, a STATUS write, a reset, or a step that leaves STATUS, PEND and the keys alone. -/

namespace Sys2Proof.Proofs

open Sys2Proof Sys2Proof.Machine Sys2Proof.Claims

/-! ### The cases of a step -/

/-- What is said of BUSY = 1 holds while BUSY = 0. -/
theorem of_busy_of_idle {s : State} {p : Prop} (hidle : s.busy = false) (hbusy : s.busy = true) : p :=
  absurd (hidle.symm.trans hbusy) Bool.false_ne_true

/-- The state a step works on: its event is taken from the events to come. -/
def taken (s : State) : State := { s with inputs := s.inputs.tail }

theorem taken_of_cons {s : State} {e : Event} {rest : List Event} (hin : s.inputs = e :: rest) :
    { s with inputs := rest } = taken s := by
  simp [taken, hin]

theorem taken_of_nil {s : State} (hin : s.inputs = []) : taken s = s := by
  cases s
  obtain rfl : _ = [] := hin
  rfl

/-- From `s` to `t` at most data registers and buffer bytes changed, and LEN not while BUSY = 1. -/
structure Quiet (s t : State) : Prop where
  busy : t.busy = s.busy
  done : t.done = s.done
  err : t.err = s.err
  errCode : t.errCode = s.errCode
  padErr : t.padErr = s.padErr
  ksValid : t.ksValid = s.ksValid
  rk : t.rk = s.rk
  pend : t.pend = s.pend
  cfg : t.cfg = s.cfg
  len : s.busy = true → ∀ b, t.len b = s.len b
  memory : t.mem = s.mem ∨
    ∃ b o data, t.mem = Memory.setBytes s.mem (bufAddr b o) data ∧ o + data.length ≤ s.cfg.maxSize

/-- All that a step to a next state can be. -/
inductive StepTaken (s : State) : State → Prop
  | completes {i : Instr} {t : State} (h : CompletesNow s i) (hexec : exec i (taken s) = .next t) : StepTaken s t
  | issues {v : Word} (h : CommandWrittenNow s v) :
      StepTaken s (respond (some ⟨false, none⟩) (issue v (taken s)))
  | clears {v : Word} (h : StatusWrittenNow s v) :
      StepTaken s (respond (some ⟨false, none⟩) (writeStatus v (taken s)))
  | resets (h : ResetNow s) : StepTaken s (resetStep (taken s))
  | quiet {t : State} (h : Quiet s t) : StepTaken s t

/-- A step that changes only the events to come and the answer is quiet. -/
theorem quiet_respond (s : State) (r : Option BusResponse) : Quiet s (respond r (taken s)) where
  busy := rfl
  done := rfl
  err := rfl
  errCode := rfl
  padErr := rfl
  ksValid := rfl
  rk := rfl
  pend := rfl
  cfg := rfl
  len := fun _ b => by cases b <;> rfl
  memory := .inl rfl

/-- A write to a data register while BUSY = 0 is quiet (R43 to R45). -/
theorem quiet_write_dataReg {s : State} {g : Reg} (v : Word) (r : Option BusResponse) (hcmd : g ≠ .cmd)
    (hstatus : g ≠ .status) (hidle : s.busy = false) : Quiet s (respond r (writeReg g v (taken s))) := by
  cases g with
  | cmd => exact absurd rfl hcmd
  | status => exact absurd rfl hstatus
  | len b => cases b <;> exact ⟨rfl, rfl, rfl, rfl, rfl, rfl, rfl, rfl, rfl, of_busy_of_idle hidle, .inl rfl⟩
  | _ => exact ⟨rfl, rfl, rfl, rfl, rfl, rfl, rfl, rfl, rfl, of_busy_of_idle hidle, .inl rfl⟩

/-- A step that takes a host access is a CMD write while BUSY = 0, a STATUS write, or quiet. -/
theorem stepTaken_of_host {s t : State} {acc : Access} {rest : List Event} (hin : s.inputs = .host acc :: rest)
    (h : step s = .next t) : StepTaken s t := by
  have hacc : hostAccess acc (taken s) = .next t := by rw [← taken_of_cons hin, ← step_of_host hin, h]
  obtain ⟨r, u, rfl, rfl | ⟨g, v, rfl, rfl, -, -, hbusy⟩ | ⟨b, o, data, rfl, hidle, -, hsize⟩⟩ := hostAccess_next hacc
  · exact .quiet (quiet_respond s r)
  · by_cases hstatus : g = .status
    · subst hstatus
      rw [step_write_status hin, taken_of_cons hin] at h
      exact Host.Outcome.next.inj h ▸ .clears ⟨rest, hin⟩
    have hidle : s.busy = false := Bool.eq_false_iff.2 fun hb => hstatus (hbusy hb)
    by_cases hcmd : g = .cmd
    · subst hcmd
      rw [step_write_cmd hidle hin, taken_of_cons hin] at h
      exact Host.Outcome.next.inj h ▸ .issues ⟨hidle, rest, hin⟩
    · exact .quiet (quiet_write_dataReg v r hcmd hstatus hidle)
  · exact .quiet ⟨rfl, rfl, rfl, rfl, rfl, rfl, rfl, rfl, rfl, of_busy_of_idle hidle, .inr ⟨b, o, data, rfl, hsize⟩⟩

/-- The engine's step is the completion of the pending command, or quiet. -/
theorem stepTaken_of_engine {s t : State} (hturn : s.inputs = [] ∨ ∃ rest, s.inputs = .engine :: rest)
    (h : engineStep (taken s) = .next t) : StepTaken s t := by
  obtain ⟨i, hbusy, hpend, heq⟩ | ⟨-, heq⟩ := engineStep_cases (taken s)
  · exact .completes ⟨hbusy, hpend, hturn⟩ (heq.symm.trans h)
  · cases heq.symm.trans h
    exact .quiet (quiet_respond s s.resp)

/-- Every step to a next state is one of the cases. -/
theorem stepTaken_of_step {s t : State} (h : step s = .next t) : StepTaken s t := by
  obtain ⟨hin, heq⟩ | ⟨acc, rest, hin, -⟩ | ⟨rest, hin, heq⟩ | ⟨rest, hin, heq⟩ := step_cases s
  · exact stepTaken_of_engine (.inl hin) (by rw [taken_of_nil hin, ← heq, h])
  · exact stepTaken_of_host hin h
  · exact stepTaken_of_engine (.inr ⟨rest, hin⟩) (by rw [← taken_of_cons hin, ← heq, h])
  · rw [heq, taken_of_cons hin] at h
    exact Host.Outcome.next.inj h ▸ .resets ⟨rest, hin⟩

end Sys2Proof.Proofs
end

section
/-! SUPPORT. The invariant of every reachable state: it holds after reset and every case of a step keeps it; the
obligations O46 and O47. -/

namespace Sys2Proof.Proofs

open Sys2Proof Sys2Proof.Machine Sys2Proof.Claims

/-! ### Each part of the invariant -/

/-- R126: the length check reads the build parameters and LEN only. -/
theorem lenOk_congr {s t : State} (i : Instr) (hcfg : t.cfg = s.cfg) (hlen : ∀ b, t.len b = s.len b) :
    lenOk i t = lenOk i s := by
  cases i <;> simp only [lenOk, srcLenOk, hcfg, hlen]

/-- R50: nothing pending while BUSY = 0. -/
theorem pendOk_of_idle {t : State} (hbusy : t.busy = false) (hpend : t.pend = none) : t.PendOk := by
  simp [State.PendOk, hbusy, hpend]

/-- R155: PEND and BUSY kept, and LEN while a command is pending, keep what is said of the pending command. -/
theorem pendOk_congr {s t : State} (hs : s.PendOk) (hbusy : t.busy = s.busy) (hpend : t.pend = s.pend)
    (hcfg : t.cfg = s.cfg) (hlen : s.busy = true → ∀ b, t.len b = s.len b) : t.PendOk := by
  obtain ⟨hb, hcheck⟩ := hs
  refine ⟨by rw [hbusy, hpend, hb], fun i hi => ?_⟩
  rw [hpend] at hi
  rw [lenOk_congr i hcfg (hlen (by rw [hb, Option.mem_def.1 hi]; rfl))]
  exact hcheck i hi

/-- R39: keys that were right stay right where they are kept or ensured. -/
theorem keysOk_of_keys {s t : State} (hs : s.KeysOk) (hcfg : t.cfg = s.cfg) (h : KeysKept s t ∨ KeysEnsured s t) :
    t.KeysOk := by
  intro hvalid
  obtain ⟨hks, hrk⟩ | ⟨-, hrk⟩ := h
  · rw [hrk, hcfg, hs (hks ▸ hvalid)]
  · rw [hrk, hcfg]
    split
    next hbefore => exact hs hbefore
    next => rfl

/-- R52, R57: a store inside one buffer keeps the memory canonical and inside the buffers. -/
theorem memoryOk_of_store {s t : State} (hwf : s.cfg.wf) (hs : s.MemoryOk) (hcfg : t.cfg = s.cfg)
    (h : t.mem = s.mem ∨
      ∃ b o data, t.mem = Memory.setBytes s.mem (bufAddr b o) data ∧ o + data.length ≤ s.cfg.maxSize) :
    t.MemoryOk := by
  obtain ⟨hcanonical, hinside⟩ := hs
  obtain ⟨-, -, hmax, -⟩ := hwf
  rw [State.MemoryOk, hcfg]
  obtain hmem | ⟨b, o, data, hmem, hsize⟩ := h <;> rw [hmem]
  · exact ⟨hcanonical, hinside⟩
  · refine ⟨memory_wf_setBytes data _ _ hcanonical, fun c hc => ?_⟩
    obtain ⟨hlo, hhi⟩ | hc := memory_mem_setBytes data _ _ c hc
    · have hindex : bufIndex b ≤ 2 := by cases b <;> decide
      unfold bufAddr at hlo hhi
      simp only [InBuffers]
      omega
    · exact hinside c hc

/-! ### Each case of a step -/

/-- What is not the block's state is no part of the invariant: the draws, the events to come and the last answer. -/
theorem inv_of_environment {s : State} (n : Nat) (l : List Event) (r : Option BusResponse) (hs : s.Inv) :
    State.Inv { s with draws := n, inputs := l, resp := r } := by
  obtain ⟨hwf, hmem, hpend, hkeys, hflags⟩ := hs
  exact ⟨hwf, hmem, pendOk_congr hpend rfl rfl rfl fun _ b => by cases b <;> rfl, hkeys, hflags⟩

theorem inv_taken {s : State} (hs : s.Inv) : (taken s).Inv := inv_of_environment s.draws _ s.resp hs

theorem inv_respond {s : State} (r : Option BusResponse) (hs : s.Inv) : (respond r s).Inv :=
  inv_of_environment s.draws s.inputs r hs

/-- R155: a pending command that passes its check runs when it completes. -/
theorem commandRan_of_completes {s t : State} {i : Instr} (hs : s.PendOk) (h : CompletesNow s i)
    (hexec : exec i (taken s) = .next t) : CommandRan (taken s) t := by
  obtain ⟨-, hpend, -⟩ := h
  obtain hran | ⟨hno, -⟩ := exec_next hexec
  · exact hran
  · exact absurd (hs.2 i hpend) (by rwa [taken, lenOk_inputs] at hno)

/-- R155: a completion of a command that passes its check keeps the invariant. -/
theorem inv_of_commandRan {s t : State} (hs : s.Inv) (h : CommandRan s t) : t.Inv := by
  obtain ⟨hwf, hmem, -, hkeys, hcodes, herr, -⟩ := hs
  obtain ⟨⟨hpend, hbusy, -, herr', hcode', -, -, hcfg, -, -⟩, hk, hm⟩ := h
  refine ⟨hcfg ▸ hwf, memoryOk_of_store hwf hmem hcfg ?_, pendOk_of_idle hbusy hpend, keysOk_of_keys hkeys hcfg hk, ?_⟩
  · exact hm.imp_right fun ⟨d, out, hstore, hsize⟩ => ⟨d, 0, out, hstore, by have := hsize hwf; omega⟩
  · rw [State.FlagsOk, herr', hcode', hbusy]
    exact ⟨hcodes, herr, fun h => absurd h Bool.false_ne_true⟩

/-- R152, R153: an issue keeps the invariant: a rejected one writes a code from 1 to 3, an accepted one a command that
passed the check. -/
theorem inv_issue {s : State} (v : Word) (hs : s.Inv) (hbusy : s.busy = false) : (issue v s).Inv := by
  obtain ⟨hwf, hmem, ⟨hpend, hcheck⟩, hkeys, hcodes, herr, -⟩ := hs
  obtain ⟨e, -, heq⟩ | ⟨i, hok, heq⟩ := issue_cases v s <;> rw [heq]
  · have hnone : s.pend = none := by simpa [hbusy] using hpend
    have hcode : (errorCode e).toNat ≤ 3 ∧ errorCode e ≠ 0 := by cases e <;> decide
    refine ⟨hwf, hmem, pendOk_of_idle hbusy hnone, hkeys, hcode.1, iff_of_true rfl hcode.2, fun h => ?_⟩
    exact of_busy_of_idle hbusy h
  · obtain ⟨hdecode, hlen⟩ := (check_ok_iff v s i).1 hok
    obtain ⟨hw, -⟩ := (decode_ok_iff v i).1 hdecode
    refine ⟨hwf, hmem, ⟨rfl, fun j hj => ?_⟩, hkeys, hcodes, herr, fun _ => rfl⟩
    obtain rfl : i = j := Option.some.inj hj
    exact ⟨hw, (lenOk_congr i rfl (acceptIssue_len i s)).trans hlen⟩

/-- R42: a STATUS write clears ERR and ERRCODE together and sets nothing. -/
theorem inv_writeStatus {s : State} (v : Word) (hs : s.Inv) : (writeStatus v s).Inv := by
  obtain ⟨hwf, hmem, hpend, hkeys, hcodes, herr, hdone⟩ := hs
  refine ⟨hwf, hmem, pendOk_congr hpend rfl rfl rfl fun _ => writeStatus_len v s, hkeys, ?codes, ?err, fun hb => ?done⟩
  case codes =>
    rw [writeStatus_errCode]
    split
    next => decide
    next => exact hcodes
  case err =>
    rw [writeStatus_err, writeStatus_errCode]
    cases v.getLsbD 2 <;> simp [herr]
  case done => rw [writeStatus_done, hdone hb, Bool.false_and]

/-- The invariant right after reset (R55). -/
theorem inv_resetWith {p : Params} (hp : p.wf) : (State.resetWith p).Inv :=
  ⟨hp, ⟨rfl, fun _ hc => absurd hc List.not_mem_nil⟩, pendOk_of_idle rfl rfl, by simp [State.resetWith],
    by simp [State.FlagsOk, State.resetWith]⟩

/-- R301: the reset input gives the state after reset but for the draws, the events and the answer. -/
theorem inv_resetStep {s : State} (hs : s.Inv) : (resetStep s).Inv :=
  inv_of_environment s.draws s.inputs s.resp (inv_resetWith hs.1)

/-- A quiet step keeps the invariant. -/
theorem inv_of_quiet {s t : State} (hs : s.Inv) (h : Quiet s t) : t.Inv := by
  obtain ⟨hwf, hmem, hpend, hkeys, hflags⟩ := hs
  refine ⟨h.cfg ▸ hwf, memoryOk_of_store hwf hmem h.cfg h.memory, pendOk_congr hpend h.busy h.pend h.cfg h.len,
    keysOk_of_keys hkeys h.cfg (.inl ⟨h.ksValid, h.rk⟩), ?_⟩
  rwa [State.FlagsOk, h.errCode, h.err, h.busy, h.done]

/-! ### The obligations -/

/-- Settles O46: the reference parameters are legal. -/
theorem invariantHoldsAfterReset : Obligations.InvariantHoldsAfterReset :=
  ⟨inv_resetWith (by decide), fun _ => inv_resetWith⟩

/-- Settles O47: each case of a step keeps the invariant. -/
theorem everyStepKeepsTheInvariant : Obligations.EveryStepKeepsTheInvariant := by
  intro s t hs h
  cases stepTaken_of_step h with
  | completes hnow hexec => exact inv_of_commandRan (inv_taken hs) (commandRan_of_completes hs.2.2.1 hnow hexec)
  | issues hwrite => exact inv_respond _ (inv_issue _ (inv_taken hs) hwrite.1)
  | clears hwrite => exact inv_respond _ (inv_writeStatus _ (inv_taken hs))
  | resets hreset => exact inv_resetStep (inv_taken hs)
  | quiet hquiet => exact inv_of_quiet hs hquiet

end Sys2Proof.Proofs
end

section
/-! SUPPORT. The host's register accesses (spec/10_state.md R35, R43 to R47, spec/20_memory.md R81, R84, R92): the data
registers read and written, the round keys read, and the obligations O10, O13, O14, O18, O19 and O21. -/

namespace Sys2Proof.Proofs

open Sys2Proof Sys2Proof.Machine Sys2Proof.Claims

/-! ### STATUS -/

/-- A concatenation as a number: the left part stands above the right one. -/
theorem toNat_append_eq_add {m n : Nat} (x : BitVec m) (y : BitVec n) :
    (x ++ y).toNat = x.toNat * 2 ^ n + y.toNat := by
  rw [BitVec.toNat_append, ← Nat.shiftLeft_add_eq_or_of_lt y.isLt, Nat.shiftLeft_eq]

/-- R35: STATUS as a number, each flag at its bit. -/
theorem statusWord_toNat (s : State) :
    (statusWord s).toNat = s.busy.toNat + 2 * s.done.toNat + 4 * s.err.toNat + 8 * s.ksValid.toNat +
      16 * s.padErr.toNat + 256 * s.errCode.toNat := by
  simp only [statusWord, toNat_append_eq_add, BitVec.toNat_ofNat, BitVec.toNat_ofBool]
  omega

/-- R35: the step that takes a host read of STATUS, BUSY whatever it is. -/
theorem step_read_status {s : State} {rest : List Event} (hin : s.inputs = .host (readAt s 0x10) :: rest) :
    step s = .next { s with inputs := rest, resp := some ⟨false, some (statusWord s)⟩ } :=
  step_read_reg (r := .status) rfl (fun _ => .inl rfl) hin

/-- Settles O10: a read answers `statusWord` in every state. -/
theorem statusReadsAsItsLayout : Obligations.StatusReadsAsItsLayout :=
  fun s _ hin => ⟨statusWord s, step_read_status hin, statusWord_toNat s⟩

/-! ### The data registers -/

/-- The read/write registers with their offsets (R32, R43 to R45). -/
def dataRegs : List (Reg × Nat) :=
  [(.blkX, 0x18), (.blkY, 0x20), (.ivLo, 0x28), (.ivHi, 0x30), (.len .b0, 0x38), (.len .b1, 0x40), (.len .b2, 0x48)]

/-- R43 to R45: a register that holds what is written to it. -/
inductive DataReg : Reg → Prop
  | blkX : DataReg .blkX
  | blkY : DataReg .blkY
  | ivLo : DataReg .ivLo
  | ivHi : DataReg .ivHi
  | len (b : Buf) : DataReg (.len b)

theorem dataReg_of_mem_dataRegs : ∀ p ∈ dataRegs, p.2 = regOffset p.1 ∧ DataReg p.1 := by
  simp only [dataRegs, List.forall_mem_cons]
  exact ⟨⟨rfl, .blkX⟩, ⟨rfl, .blkY⟩, ⟨rfl, .ivLo⟩, ⟨rfl, .ivHi⟩, ⟨rfl, .len .b0⟩, ⟨rfl, .len .b1⟩, ⟨rfl, .len .b2⟩,
    List.forall_mem_nil _⟩

section
variable {r : Reg} (v : Word) (s : State) (hr : DataReg r)
include hr

theorem not_readOnlyReg_of_dataReg : ¬ ReadOnlyReg r := by
  cases hr <;> simp [ReadOnlyReg]

/-- R43 to R45: a data register reads back what was written. -/
theorem readReg_writeReg_same : readReg r (writeReg r v s) = .ok v := by
  cases hr with
  | len b => exact congrArg Except.ok (setLen_len_self s b v)
  | blkX | blkY | ivLo | ivHi => rfl

/-- R43 to R45: a write to a data register changes what no other register reads. -/
theorem readReg_writeReg_other {q : Reg} (hq : q ≠ r) : readReg q (writeReg r v s) = readReg q s := by
  cases hr with
  | len b =>
    cases q with
    | len c => exact congrArg Except.ok (setLen_len_other s b c v fun h => hq (h ▸ rfl))
    | _ => cases b <;> rfl
  | blkX | blkY | ivLo | ivHi =>
    cases q with
    | len c => cases c <;> rfl
    | rk i => rfl
    | _ => simp [readReg, writeReg, statusWord] at hq ⊢

/-- A write to a data register leaves the rest of the block and its environment alone. -/
theorem writeReg_dataReg_frame :
    (writeReg r v s).busy = s.busy ∧ (writeReg r v s).rk = s.rk ∧ (writeReg r v s).mem = s.mem ∧
      (writeReg r v s).cv = s.cv ∧ (writeReg r v s).pend = s.pend ∧ (writeReg r v s).cfg = s.cfg ∧
      (writeReg r v s).draws = s.draws ∧ (writeReg r v s).inputs = s.inputs := by
  cases hr <;> simp [writeReg]

end

/-- Settles O13: the write stores in the register alone, and the read after it answers the register. -/
theorem writtenRegisterReadsBack : Obligations.WrittenRegisterReadsBack := by
  intro s r o v rest hbusy hmem hin
  obtain ⟨hoffset, hr⟩ : o = regOffset r ∧ DataReg r := dataReg_of_mem_dataRegs (r, o) hmem
  subst hoffset
  have hwrite := step_write_reg (not_readOnlyReg_of_dataReg hr) (of_busy_of_idle hbusy) hin
  generalize hu : writeReg r v { s with inputs := .host (readAt s (regOffset r)) :: rest } = u at hwrite
  obtain ⟨hb, hrk, hm, hcv, hpend, hcfg, hdraws, hinputs⟩ := hu ▸ writeReg_dataReg_frame v _ hr
  have hread : readReg r u = .ok v := hu ▸ readReg_writeReg_same v _ hr
  have hin' : (respond (some ⟨false, none⟩) u).inputs =
      .host (readAt (respond (some ⟨false, none⟩) u) (regOffset r)) :: rest := by
    simp only [respond_inputs, readAt, respond_cfg, hinputs, hcfg]
  have hbusy' : (respond (some ⟨false, none⟩) u).busy = false := hb.trans hbusy
  refine ⟨_, _, hwrite, step_read_reg hread (of_busy_of_idle hbusy') hin', rfl, rfl, rfl,
    fun q hq => ?_, hrk, hm, hcv, hpend, hcfg, hdraws⟩
  exact (hu ▸ readReg_writeReg_other v _ hr hq :)

/-- The offsets of the data registers and of CMD, each with the word its register reads as (R34, R43 to R45). -/
theorem exists_reg_of_read_list (s : State) :
    ∀ p ∈ ([(0x8, 0), (0x18, s.blkX), (0x20, s.blkY), (0x28, s.ivLo), (0x30, s.ivHi), (0x38, s.len .b0),
      (0x40, s.len .b1), (0x48, s.len .b2)] : List (Nat × Word)), ∃ r, p.1 = regOffset r ∧ readReg r s = .ok p.2 := by
  simp only [List.forall_mem_cons]
  exact ⟨⟨.cmd, rfl, rfl⟩, ⟨.blkX, rfl, rfl⟩, ⟨.blkY, rfl, rfl⟩, ⟨.ivLo, rfl, rfl⟩, ⟨.ivHi, rfl, rfl⟩,
    ⟨.len .b0, rfl, rfl⟩, ⟨.len .b1, rfl, rfl⟩, ⟨.len .b2, rfl, rfl⟩, List.forall_mem_nil _⟩

/-- Settles O14: each offset is a register's, and while BUSY = 0 its read answers. -/
theorem registerReadsReturnTheRegister : Obligations.RegisterReadsReturnTheRegister := by
  intro s o v rest hbusy hmem hin
  obtain ⟨r, hoffset, hread⟩ := exists_reg_of_read_list s (o, v) hmem
  obtain rfl : o = regOffset r := hoffset
  exact step_read_reg hread (of_busy_of_idle hbusy) hin

/-! ### The round keys -/

/-- R47: the read of a round key before the keys are valid. -/
theorem step_read_rk_invalid {s : State} {i : Fin 32} {rest : List Event} (hbusy : s.busy = false)
    (hks : s.ksValid = false) (hin : s.inputs = .host (readAt s (0x100 + 8 * i.val)) :: rest) :
    step s = .fault (.unwrittenRk i) := by
  have hread : readReg (.rk i) { s with inputs := rest } = .error (.unwrittenRk i) := if_neg (by simp [hks])
  have hacc := hostAccess_read_reg { s with inputs := rest } (.rk i) (of_busy_of_idle hbusy)
  rw [hread] at hacc
  rw [step_of_host hin]
  exact hacc

/-- R46: the read of a valid round key. -/
theorem step_read_rk_valid {s : State} {i : Fin 32} {rest : List Event} (hbusy : s.busy = false)
    (hks : s.ksValid = true) (hin : s.inputs = .host (readAt s (0x100 + 8 * i.val)) :: rest) :
    step s = .next { s with inputs := rest, resp := some ⟨false, some s.rk[i]⟩ } :=
  step_read_reg (r := .rk i) (if_pos hks) (of_busy_of_idle hbusy) hin

/-- Settles O19: the two cases of KS_VALID. -/
theorem roundKeyReadNeedsValidKeys : Obligations.RoundKeyReadNeedsValidKeys :=
  fun _ _ _ hbusy hin => ⟨fun hks => step_read_rk_invalid hbusy hks hin, fun hks => step_read_rk_valid hbusy hks hin⟩

/-! ### Every read, and an access that misses the block -/

/-- Settles O18: a read that answers, with data or with an error, changes the answer only. -/
theorem readsChangeNothing : Obligations.ReadsChangeNothing := by
  intro s t acc rest hin hkind ht
  rw [step_of_host hin] at ht
  obtain ⟨-, heq⟩ | ⟨a, -, ⟨-, heq⟩ | ⟨-, -, ⟨v, -, heq⟩ | ⟨f, -, heq⟩⟩ | ⟨-, v, hwrite, -⟩⟩ :=
    hostAccess_cases acc { s with inputs := rest }
  · cases heq.symm.trans ht; rfl
  · cases heq.symm.trans ht; rfl
  · cases heq.symm.trans ht; rfl
  · cases heq.symm.trans ht
  · cases hkind.symm.trans hwrite

/-- Settles O21: such an address is none of the block's. -/
theorem addressOutsideTheWindowHasNoEffect : Obligations.AddressOutsideTheWindowHasNoEffect := by
  intro s acc rest hin hout
  have hwindow : Config.windowBytes = 0x40000 := rfl
  have hmiss : blockAddr s.cfg acc.addr = none := if_neg (by omega)
  rw [step_of_host hin]
  simp only [hostAccess, hmiss]
  rfl

end Sys2Proof.Proofs
end

section
/-! SUPPORT. The five buffer commands as one form (spec/40_command_interface.md R158): what two states that agree on the
buffers make of the same command, the parts of the state a command does not look at (spec/43_cbc_chainer.md R220), its use
of the round keys (spec/41_keyschedule.md R184), and the obligations O25 and O43. -/

namespace Sys2Proof.Proofs

open Sys2Proof Sys2Proof.Machine Sys2Proof.Claims

/-! ### The form of a buffer command -/

/-- `i` is the buffer command with length bound `ok`, effect `eff` and the fields `src` and `dst`. -/
inductive BufferForm :
    Instr → (Params → Word → Bool) → (Bytes → State → Bytes × State) → BitVec 2 → BitVec 2 → Prop
  | pad (src dst : BitVec 2) : BufferForm (.pad src dst) lenOkPad padEffect src dst
  | cbcenc (src dst : BitVec 2) : BufferForm (.cbcenc src dst) lenOkCbcenc cbcencEffect src dst
  | cbcencInj (src dst : BitVec 2) : BufferForm (.cbcencInj src dst) lenOkCbcenc cbcencInjEffect src dst
  | cbcdec (src dst : BitVec 2) : BufferForm (.cbcdec src dst) lenOkCbcdec cbcdecEffect src dst
  | unpad (src dst : BitVec 2) : BufferForm (.unpad src dst) lenOkUnpad unpadEffect src dst

theorem exists_bufferForm {i : Instr} (h : BufferCommand i) : ∃ ok eff src dst, BufferForm i ok eff src dst := by
  cases i with
  | nop | keyinit | encb | decb => exact h.elim
  | pad src dst => exact ⟨_, _, _, _, .pad src dst⟩
  | cbcenc src dst => exact ⟨_, _, _, _, .cbcenc src dst⟩
  | cbcencInj src dst => exact ⟨_, _, _, _, .cbcencInj src dst⟩
  | cbcdec src dst => exact ⟨_, _, _, _, .cbcdec src dst⟩
  | unpad src dst => exact ⟨_, _, _, _, .unpad src dst⟩

/-- R126, R158: the fields select two buffers and LEN[SRC] is within the bound. -/
structure Selects (ok : Params → Word → Bool) (src dst : BitVec 2) (s : State) (b d : Buf) : Prop where
  source : bufOf src = some b
  dest : bufOf dst = some d
  bound : ok s.cfg (s.len b) = true

section
variable {i : Instr} {ok : Params → Word → Bool} {eff : Bytes → State → Bytes × State} {src dst : BitVec 2}

theorem BufferForm.exec_eq (h : BufferForm i ok eff src dst) (s : State) :
    exec i s = bufferCommand ok eff src dst s := by
  cases h <;> rfl

/-- R155: a buffer command that passes its issue check selects its buffers. -/
theorem BufferForm.selects (h : BufferForm i ok eff src dst) {s : State} (hw : i.WellFormed)
    (hlen : lenOk i s = true) : ∃ b d, Selects ok src dst s b d := by
  have hsel : SelectsBuffer src ∧ SelectsBuffer dst := by cases h <;> exact of_decide_eq_true hw
  have hbound : srcLenOk ok src s = true := by cases h <;> exact hlen
  obtain ⟨b, hb⟩ := bufOf_of_selects src hsel.1
  obtain ⟨d, hd⟩ := bufOf_of_selects dst hsel.2
  simp only [srcLenOk, hb] at hbound
  exact ⟨b, d, hb, hd, hbound⟩

/-- R158: a buffer command that passes its issue check stores its effect's output, when it answers. -/
theorem BufferForm.exec_next (h : BufferForm i ok eff src dst) {s t : State} (hw : i.WellFormed)
    (hlen : lenOk i s = true) (ht : exec i s = .next t) :
    ∃ b d S, Selects ok src dst s b d ∧ s.Holds b S ∧ t = stored d (eff S s).1 (eff S s).2 := by
  obtain ⟨b, d, hsel⟩ := h.selects hw hlen
  rw [h.exec_eq] at ht
  obtain ⟨b', d', S, hb, hd, hok, hS, rfl⟩ | ⟨b', hb, hno, -⟩ | ⟨hno, -⟩ := bufferCommand_next ht
  · exact ⟨b', d', S, ⟨hb, hd, hok⟩, hS, rfl⟩
  · obtain rfl : b = b' := Option.some.inj (hsel.source.symm.trans hb)
    exact absurd (hno.symm.trans hsel.bound) Bool.false_ne_true
  · simp [hsel.source, hsel.dest] at hno

end

/-! ### Two states with the same buffers -/

/-- The two states agree on all that a buffer command reads before its effect (R158). -/
structure SameBuffers (s s' : State) : Prop where
  cfg : s'.cfg = s.cfg
  mem : s'.mem = s.mem
  len : ∀ b, s'.len b = s.len b

theorem SameBuffers.holds {s s' : State} (h : SameBuffers s s') {b : Buf} {S : Bytes} (hS : s.Holds b S) :
    s'.Holds b S := by
  obtain ⟨hlen, hbytes⟩ := hS
  refine ⟨by rw [h.len, hlen], fun k hk => ?_⟩
  rw [State.byteAt, h.mem]
  exact hbytes k hk

theorem SameBuffers.bufRead {s s' : State} (h : SameBuffers s s') (b : Buf) (o n : Nat) :
    s'.bufRead b o n = s.bufRead b o n := by
  induction n generalizing o with
  | zero => rfl
  | succ n ih => simp only [State.bufRead, State.byteAt, h.mem, ih]

theorem SameBuffers.refl (s : State) : SameBuffers s s := ⟨rfl, rfl, fun _ => rfl⟩

/-- R158: in all states with the same buffers a buffer command stores its effect on the same source, or fails the same
check, or stops at the same byte. -/
theorem bufferCommand_of_sameBuffers (ok : Params → Word → Bool) (eff : Bytes → State → Bytes × State)
    (src dst : BitVec 2) (s : State) :
    (∃ d S, ∀ s', SameBuffers s s' →
      bufferCommand ok eff src dst s' = .next (stored d (eff S s').1 (eff S s').2)) ∨
    (∃ e, ∀ s', SameBuffers s s' → bufferCommand ok eff src dst s' = .next (failedCheck e s')) ∨
    ∃ f, ∀ s', SameBuffers s s' → bufferCommand ok eff src dst s' = .fault f := by
  cases hb : bufOf src with
  | none => exact .inr (.inl ⟨.badBuf, fun s' _ => by simp only [bufferCommand, hb]⟩)
  | some b =>
    cases hd : bufOf dst with
    | none => exact .inr (.inl ⟨.badBuf, fun s' _ => by simp only [bufferCommand, hb, hd]⟩)
    | some d =>
      cases hok : ok s.cfg (s.len b) with
      | false =>
        refine .inr (.inl ⟨.badLen, fun s' h => ?_⟩)
        simp only [bufferCommand, hb, hd, h.cfg, h.len, hok, Bool.false_eq_true, if_false]
      | true =>
        cases hread : s.bufRead b 0 (s.len b).toNat with
        | ok S =>
          refine .inl ⟨d, S, fun s' h => ?_⟩
          simp only [bufferCommand, hb, hd, h.cfg, h.len, h.bufRead, hok, hread, if_true]
          rfl
        | error f =>
          refine .inr (.inr ⟨f, fun s' h => ?_⟩)
          simp only [bufferCommand, hb, hd, h.cfg, h.len, h.bufRead, hok, hread, if_true]

/-! ### Parts of the state that a buffer command does not look at -/

/-- `f` changes parts of the state that command `i` neither reads nor writes: it can as well act on the result. -/
structure Bystander (i : Instr) (f : State → State) : Prop where
  buffers : ∀ s, SameBuffers s (f s)
  effect : ∀ {ok eff src dst}, BufferForm i ok eff src dst → ∀ S s, eff S (f s) = ((eff S s).1, f (eff S s).2)
  stores : ∀ d out s, stored d out (f s) = f (stored d out s)
  fails : ∀ e s, failedCheck e (f s) = f (failedCheck e s)

/-- R220: a buffer command commutes with its bystanders. -/
theorem exec_bystander {i : Instr} {f : State → State} (hi : BufferCommand i) (hf : Bystander i f) (s : State) :
    exec i (f s) = mapNext f (exec i s) := by
  obtain ⟨ok, eff, src, dst, h⟩ := exists_bufferForm hi
  rw [h.exec_eq, h.exec_eq]
  have hs := SameBuffers.refl s
  have hfs := hf.buffers s
  obtain ⟨d, S, hall⟩ | ⟨e, hall⟩ | ⟨r, hall⟩ := bufferCommand_of_sameBuffers ok eff src dst s
  · rw [hall s hs, hall (f s) hfs, hf.effect h, hf.stores]; rfl
  · rw [hall s hs, hall (f s) hfs, hf.fails]; rfl
  · rw [hall s hs, hall (f s) hfs]; rfl

/-- BLK_X and BLK_Y set (R43). -/
def withBlk (x y : Word) (s : State) : State := { s with blkX := x, blkY := y }

/-- IV_LO and IV_HI set (R44). -/
def withIv (lo hi : Word) (s : State) : State := { s with ivLo := lo, ivHi := hi }

theorem ensureKs_withBlk (x y : Word) (s : State) : ensureKs (withBlk x y s) = withBlk x y (ensureKs s) := by
  cases hv : s.ksValid <;> simp [ensureKs, withBlk, hv]

theorem ensureKs_withIv (lo hi : Word) (s : State) : ensureKs (withIv lo hi s) = withIv lo hi (ensureKs s) := by
  cases hv : s.ksValid <;> simp [ensureKs, withIv, hv]

/-- R220: no buffer command looks at the block registers. -/
theorem bystander_withBlk (i : Instr) (x y : Word) : Bystander i (withBlk x y) where
  buffers s := ⟨rfl, rfl, fun b => by cases b <;> rfl⟩
  effect h S s := by
    cases h with
    | pad | unpad => rfl
    | cbcenc | cbcencInj | cbcdec => simp only [cbcencEffect, cbcencInjEffect, cbcdecEffect, ensureKs_withBlk]; rfl
  stores d out s := by cases d <;> rfl
  fails _ _ := rfl

/-- R220: no buffer command but CBCENC.INJ looks at the IV registers. -/
theorem bystander_withIv {i : Instr} (hinj : ∀ src dst, i ≠ .cbcencInj src dst) (lo hi : Word) :
    Bystander i (withIv lo hi) where
  buffers s := ⟨rfl, rfl, fun b => by cases b <;> rfl⟩
  effect h S s := by
    cases h with
    | pad | unpad => rfl
    | cbcencInj => exact absurd rfl (hinj _ _)
    | cbcenc | cbcdec => simp only [cbcencEffect, cbcdecEffect, ensureKs_withIv]; rfl
  stores d out s := by cases d <;> rfl
  fails _ _ := rfl

/-- Settles O43: the block registers and, but for CBCENC.INJ, the IV registers are bystanders. -/
theorem bufferCommandsIgnoreTheBlockRegisters : Obligations.BufferCommandsIgnoreTheBlockRegisters :=
  fun i s hi => ⟨fun x y => exec_bystander hi (bystander_withBlk i x y) s,
    fun hinj lo hi' => exec_bystander hi (bystander_withIv hinj lo hi') s⟩

/-! ### The round keys -/

theorem keysKept_stored {s u : State} (d : Buf) (out : Bytes) (h : KeysKept s u) : KeysKept s (stored d out u) := by
  simpa [KeysKept] using h

theorem keysEnsured_stored {s u : State} (d : Buf) (out : Bytes) (h : KeysEnsured s u) :
    KeysEnsured s (stored d out u) := by
  simpa [KeysEnsured] using h

/-- R183: ENSURE_KS does not read RK while KS_VALID = 0. -/
theorem ensureKs_of_rk {s : State} (rk : Vector Word 32) (hks : s.ksValid = false) :
    ensureKs { s with rk := rk } = ensureKs s := by
  rw [ensureKs_of_invalid s hks]
  exact ensureKs_of_invalid _ hks

section
variable {i : Instr} {ok : Params → Word → Bool} {eff : Bytes → State → Bytes × State} {src dst : BitVec 2}

theorem BufferForm.effect_keysKept (h : BufferForm i ok eff src dst) (hi : ¬ UsesKeys i) (S : Bytes) (s : State) :
    KeysKept s (eff S s).2 := by
  cases h with
  | pad | unpad => exact ⟨rfl, rfl⟩
  | cbcenc | cbcencInj | cbcdec => exact absurd trivial hi

theorem BufferForm.effect_keysEnsured (h : BufferForm i ok eff src dst) (hi : UsesKeys i) (S : Bytes) (s : State) :
    KeysEnsured s (eff S s).2 := by
  cases h with
  | pad | unpad => exact hi.elim
  | cbcenc | cbcencInj | cbcdec => exact ⟨ensureKs_ksValid s, ensureKs_rk s⟩

/-- R184: a cipher command's effect reads RK after ENSURE_KS only. -/
theorem BufferForm.effect_of_rk (h : BufferForm i ok eff src dst) (hi : UsesKeys i) {s : State} (hks : s.ksValid = false)
    (S : Bytes) (rk : Vector Word 32) : eff S { s with rk := rk } = eff S s := by
  cases h with
  | pad | unpad => exact hi.elim
  | cbcenc | cbcencInj | cbcdec => simp only [cbcencEffect, cbcencInjEffect, cbcdecEffect, ensureKs_of_rk rk hks]

/-- R184: a cipher command on a buffer that answers a next state answers it for every RK while KS_VALID = 0. -/
theorem BufferForm.exec_of_rk (h : BufferForm i ok eff src dst) (hi : UsesKeys i) {s t : State} (hks : s.ksValid = false)
    (hw : i.WellFormed) (hlen : lenOk i s = true) (ht : exec i s = .next t) (rk : Vector Word 32) :
    exec i { s with rk := rk } = .next t := by
  obtain ⟨b, d, S, hsel, hS, rfl⟩ := h.exec_next hw hlen ht
  have hsame : SameBuffers s { s with rk := rk } := ⟨rfl, rfl, fun b => by cases b <;> rfl⟩
  rw [h.exec_eq, ← h.effect_of_rk hi hks S rk]
  exact bufferCommand_of_holds hsel.source hsel.dest ((hsame.len b).symm ▸ hsel.bound) (hsame.holds hS)

/-- R184 for the buffer commands. -/
theorem BufferForm.keys (h : BufferForm i ok eff src dst) {s t : State} (hw : i.WellFormed) (hlen : lenOk i s = true)
    (ht : exec i s = .next t) :
    (¬ UsesKeys i → KeysKept s t) ∧ (UsesKeys i → KeysEnsured s t) ∧
      (UsesKeys i → s.ksValid = false → ∀ rk, exec i { s with rk := rk } = .next t) := by
  refine ⟨?kept, ?ensured, fun hi hks => h.exec_of_rk hi hks hw hlen ht⟩
  all_goals
    intro hi
    obtain ⟨b, d, S, -, -, rfl⟩ := h.exec_next hw hlen ht
  case kept => exact keysKept_stored d _ (h.effect_keysKept hi S s)
  case ensured => exact keysEnsured_stored d _ (h.effect_keysEnsured hi S s)

end

/-- R183, R184 for the commands that run ENSURE_KS first and then `f`, which keeps the keys. -/
theorem keys_of_ensureKs_first {i : Instr} {f : State → State} (hi : UsesKeys i)
    (hexec : ∀ s, exec i s = .next (f (ensureKs s))) (hf : ∀ u, KeysKept u (f u)) {s t : State}
    (ht : exec i s = .next t) :
    (¬ UsesKeys i → KeysKept s t) ∧ (UsesKeys i → KeysEnsured s t) ∧
      (UsesKeys i → s.ksValid = false → ∀ rk, exec i { s with rk := rk } = .next t) := by
  obtain ⟨hks, hrk⟩ := hf (ensureKs s)
  cases (hexec s).symm.trans ht
  refine ⟨fun h => absurd hi h, fun _ => ⟨hks.trans (ensureKs_ksValid s), hrk.trans (ensureKs_rk s)⟩, fun _ hv rk => ?_⟩
  rw [hexec, ensureKs_of_rk rk hv]

/-- Settles O25: the cipher commands run ENSURE_KS first, and the others keep the keys. -/
theorem onlyCipherCommandsRunTheKeySchedule : Obligations.OnlyCipherCommandsRunTheKeySchedule := by
  intro i s t hw hlen ht
  cases i with
  | nop =>
    cases ht
    exact ⟨fun _ => ⟨rfl, rfl⟩, fun hi => hi.elim, fun hi => hi.elim⟩
  | keyinit => exact keys_of_ensureKs_first (i := .keyinit) (f := finish) trivial (fun _ => rfl) (fun _ => ⟨rfl, rfl⟩) ht
  | encb =>
    exact keys_of_ensureKs_first (i := .encb) (f := fun u => finish (setBlk (encrypt u.rk ⟨u.blkX, u.blkY⟩) u)) trivial
      (fun _ => rfl) (fun _ => ⟨rfl, rfl⟩) ht
  | decb =>
    exact keys_of_ensureKs_first (i := .decb) (f := fun u => finish (setBlk (decrypt u.rk ⟨u.blkX, u.blkY⟩) u)) trivial
      (fun _ => rfl) (fun _ => ⟨rfl, rfl⟩) ht
  | pad src dst => exact (BufferForm.pad src dst).keys hw hlen ht
  | cbcenc src dst => exact (BufferForm.cbcenc src dst).keys hw hlen ht
  | cbcencInj src dst => exact (BufferForm.cbcencInj src dst).keys hw hlen ht
  | cbcdec src dst => exact (BufferForm.cbcdec src dst).keys hw hlen ht
  | unpad src dst => exact (BufferForm.unpad src dst).keys hw hlen ht

end Sys2Proof.Proofs
end

section
/-! SUPPORT. How each flag moves in a step (spec/10_state.md R36 to R40), when a step stops (spec/40_command_interface.md
R155, R159), that valid keys stay (spec/41_keyschedule.md R186), and the obligations O24, O48, O49 and O51 to O54. -/

namespace Sys2Proof.Proofs

open Sys2Proof Sys2Proof.Machine Sys2Proof.Claims

/-! ### How a flag moves -/

/-- A flag that goes from `b` to `c` rises only if `p` and falls only if `q`. -/
abbrev FlagMoves (b c : Bool) (p q : Prop) : Prop := (b = false → c = true → p) ∧ (b = true → c = false → q)

section
variable {b c : Bool} {p q : Prop}

theorem flagMoves_of_eq (h : c = b) : FlagMoves b c p q := by
  subst h
  exact ⟨fun hs ht => absurd (hs.symm.trans ht) Bool.false_ne_true,
    fun hs ht => absurd (ht.symm.trans hs) Bool.false_ne_true⟩

theorem flagMoves_of_set (h : c = true) (hp : p) : FlagMoves b c p q :=
  ⟨fun _ _ => hp, fun _ ht => absurd (ht.symm.trans h) Bool.false_ne_true⟩

theorem flagMoves_of_clear (h : c = false) (hq : q) : FlagMoves b c p q :=
  ⟨fun _ ht => absurd (h.symm.trans ht) Bool.false_ne_true, fun _ _ => hq⟩

/-- R42: a flag that bit `x` of a STATUS write selects. -/
theorem flagMoves_of_and_not {x : Bool} (h : c = (b && !x)) (hq : x = true → q) : FlagMoves b c p q := by
  cases x with
  | false => exact flagMoves_of_eq (by simpa using h)
  | true => exact flagMoves_of_clear (by simpa using h) (hq rfl)

end

/-! ### BUSY, DONE and ERR -/

/-- R151: the CMD write of a step is rejected or accepted as the check says in the state before it. -/
theorem issue_taken_cases (v : Word) (s : State) :
    (∃ e, check v s = .error e ∧ issue v (taken s) = rejectIssue e (taken s)) ∨
    (∃ i, check v s = .ok i ∧ issue v (taken s) = acceptIssue i (taken s)) := by
  have hcheck : check v (taken s) = check v s := check_inputs v s _
  rw [← hcheck]
  exact issue_cases v (taken s)

/-- R155: every completion leaves BUSY = 0, DONE = 1 and nothing pending, that of a command that fails its check too. -/
theorem completion_of_exec {i : Instr} {s t : State} (h : exec i s = .next t) :
    t.busy = false ∧ t.done = true ∧ t.pend = none := by
  obtain ⟨⟨hpend, hbusy, hdone, -⟩, -, -⟩ | ⟨-, e, rfl⟩ := exec_next h
  · exact ⟨hbusy, hdone, hpend⟩
  · exact ⟨rfl, rfl, rfl⟩

/-- Settles O51: a completion and a reset leave BUSY = 0, an accepted issue sets it, and no other step moves it. -/
theorem busyChangesOnlyByIssueCompletionReset : Obligations.BusyChangesOnlyByIssueCompletionReset := by
  intro s t h
  cases stepTaken_of_step h with
  | completes hnow hexec =>
    obtain ⟨hbusy, -, -⟩ := completion_of_exec hexec
    exact flagMoves_of_clear hbusy (.inl ⟨_, hnow⟩)
  | @issues v hwrite =>
    obtain ⟨e, -, heq⟩ | ⟨i, hok, heq⟩ := issue_taken_cases v s <;> rw [heq]
    · exact flagMoves_of_eq rfl
    · exact flagMoves_of_set rfl ⟨v, i, hwrite, hok⟩
  | clears _ => exact flagMoves_of_eq rfl
  | resets hreset => exact flagMoves_of_clear rfl (.inr hreset)
  | quiet hquiet => exact flagMoves_of_eq hquiet.busy

/-- Settles O52: a completion and a rejected issue set DONE, an accepted issue, bit 1 of a STATUS write and a reset clear
it, and no other step moves it. -/
theorem doneChangesOnlyAsItsRuleSays : Obligations.DoneChangesOnlyAsItsRuleSays := by
  intro s t h
  cases stepTaken_of_step h with
  | completes hnow hexec =>
    obtain ⟨-, hdone, -⟩ := completion_of_exec hexec
    exact flagMoves_of_set hdone (.inl ⟨_, hnow⟩)
  | @issues v hwrite =>
    obtain ⟨e, herror, heq⟩ | ⟨i, hok, heq⟩ := issue_taken_cases v s <;> rw [heq]
    · exact flagMoves_of_set rfl (.inr ⟨v, e, hwrite, herror⟩)
    · exact flagMoves_of_clear rfl (.inl ⟨v, i, hwrite, hok⟩)
  | @clears v hwrite => exact flagMoves_of_and_not rfl fun hbit => .inr (.inl ⟨v, hwrite, hbit⟩)
  | resets hreset => exact flagMoves_of_clear rfl (.inr (.inr hreset))
  | quiet hquiet => exact flagMoves_of_eq hquiet.done

/-- Settles O53: a rejected issue sets ERR, bit 2 of a STATUS write and a reset clear it; a completion, whose command
passes its check, and every other step keep it. -/
theorem errChangesOnlyAsItsRuleSays : Obligations.ErrChangesOnlyAsItsRuleSays := by
  intro s t hpend h
  cases stepTaken_of_step h with
  | completes hnow hexec =>
    obtain ⟨-, -, -, herr, -⟩ := (commandRan_of_completes hpend hnow hexec).completed
    exact flagMoves_of_eq herr
  | @issues v hwrite =>
    obtain ⟨e, herror, heq⟩ | ⟨i, hok, heq⟩ := issue_taken_cases v s <;> rw [heq]
    · exact flagMoves_of_set rfl ⟨v, e, hwrite, herror⟩
    · exact flagMoves_of_eq rfl
  | @clears v hwrite => exact flagMoves_of_and_not rfl fun hbit => .inl ⟨v, hwrite, hbit⟩
  | resets hreset => exact flagMoves_of_clear rfl (.inr hreset)
  | quiet hquiet => exact flagMoves_of_eq hquiet.err

/-! ### PADERR -/

/-- R240: UNPAD's claim on the snapshot is invalid; no other command makes one. -/
def claimInvalid : Instr → Bytes → Bool
  | .unpad _ _, S => !(unpadLen S).2
  | _, _ => false

/-- R240: a claim is invalid when its value is above 16 or above the length. -/
theorem gt_of_claimInvalid {i : Instr} {S : Bytes} (h : claimInvalid i S = true) :
    (∃ src dst, i = .unpad src dst) ∧ (16 < lastByte S ∨ S.length < lastByte S) := by
  cases i with
  | unpad src dst =>
    refine ⟨⟨src, dst, rfl⟩, ?_⟩
    by_contra hno
    rw [not_or, not_lt, not_lt] at hno
    simp [claimInvalid, unpadLen_of_le hno.1 hno.2] at h
  | _ => cases h

/-- R241: a buffer command's effect sets PADERR when its claim is invalid, and keeps it otherwise. -/
theorem BufferForm.effect_padErr {i : Instr} {ok : Params → Word → Bool} {eff : Bytes → State → Bytes × State}
    {src dst : BitVec 2} (h : BufferForm i ok eff src dst) (S : Bytes) (s : State) :
    (eff S s).2.padErr = (s.padErr || claimInvalid i S) := by
  cases h with
  | unpad => rfl
  | pad => exact (Bool.or_false _).symm
  | cbcenc | cbcencInj | cbcdec => exact (ensureKs_padErr s).trans (Bool.or_false _).symm

/-- R40: a completion sets PADERR only for an UNPAD with an invalid claim on its source, and never clears it. -/
theorem padErr_of_exec {i : Instr} {s t : State} (h : exec i s = .next t) :
    FlagMoves s.padErr t.padErr
      (∃ src dst b S, i = .unpad src dst ∧ bufOf src = some b ∧ s.Holds b S ∧
        (16 < lastByte S ∨ S.length < lastByte S)) False := by
  by_cases hi : BufferCommand i
  · obtain ⟨ok, eff, src, dst, hform⟩ := exists_bufferForm hi
    rw [hform.exec_eq] at h
    obtain ⟨b, d, S, hb, -, -, hS, rfl⟩ | ⟨b, -, -, rfl⟩ | ⟨-, rfl⟩ := bufferCommand_next h
    · have hpad : (stored d (eff S s).1 (eff S s).2).padErr = (s.padErr || claimInvalid i S) :=
        (stored_padErr _ _ _).trans (hform.effect_padErr S s)
      cases hclaim : claimInvalid i S with
      | false => exact flagMoves_of_eq (hpad.trans (by rw [hclaim, Bool.or_false]))
      | true =>
        obtain ⟨⟨src', dst', rfl⟩, hgt⟩ := gt_of_claimInvalid hclaim
        cases hform
        exact flagMoves_of_set (hpad.trans (by rw [hclaim, Bool.or_true])) ⟨_, _, b, S, rfl, hb, hS, hgt⟩
    · exact flagMoves_of_eq rfl
    · exact flagMoves_of_eq rfl
  · cases i with
    | nop => cases h; exact flagMoves_of_eq rfl
    | keyinit => cases h; exact flagMoves_of_eq (ensureKs_padErr s)
    | encb => cases h; exact flagMoves_of_eq (ensureKs_padErr s)
    | decb => cases h; exact flagMoves_of_eq (ensureKs_padErr s)
    | _ => exact absurd trivial hi

/-- Settles O54: a completion moves PADERR as UNPAD does, bit 4 of a STATUS write and a reset clear it, and no other step
moves it. -/
theorem padErrChangesOnlyAsItsRuleSays : Obligations.PadErrChangesOnlyAsItsRuleSays := by
  intro s t h
  cases stepTaken_of_step h with
  | @completes i _ hnow hexec =>
    obtain ⟨hrises, hfalls⟩ := padErr_of_exec hexec
    refine ⟨fun hs ht => ?_, fun hs ht => (hfalls hs ht).elim⟩
    obtain ⟨src, dst, b, S, rfl, hb, hS, hgt⟩ := hrises hs ht
    exact ⟨src, dst, b, S, hnow, hb, hS, hgt⟩
  | @issues v hwrite =>
    obtain ⟨e, -, heq⟩ | ⟨i, -, heq⟩ := issue_taken_cases v s <;> rw [heq]
    · exact flagMoves_of_eq rfl
    · exact flagMoves_of_eq rfl
  | @clears v hwrite => exact flagMoves_of_and_not rfl fun hbit => .inl ⟨v, hwrite, hbit⟩
  | resets hreset => exact flagMoves_of_clear rfl (.inr hreset)
  | quiet hquiet => exact flagMoves_of_eq hquiet.padErr

/-! ### Valid round keys -/

/-- R186: a completion keeps valid keys: ENSURE_KS is a no-op on them. -/
theorem keys_of_exec {i : Instr} {s t : State} (hks : s.ksValid = true) (h : exec i s = .next t) : KeysKept s t := by
  obtain ⟨-, hkept | ⟨hvalid, hrk⟩, -⟩ | ⟨-, e, rfl⟩ := exec_next h
  · exact hkept
  · rw [if_pos hks] at hrk
    exact ⟨hvalid.trans hks.symm, hrk⟩
  · exact ⟨rfl, rfl⟩

/-- R186: every step but a reset keeps valid keys. -/
theorem keysKept_of_step {s t : State} (hks : s.ksValid = true) (hreset : ¬ ResetNow s) (h : step s = .next t) :
    KeysKept s t := by
  cases stepTaken_of_step h with
  | completes _ hexec => exact keys_of_exec (s := taken s) hks hexec
  | @issues v _ =>
    obtain ⟨e, -, heq⟩ | ⟨i, -, heq⟩ := issue_taken_cases v s <;> rw [heq]
    · exact ⟨rfl, rfl⟩
    · exact ⟨rfl, rfl⟩
  | clears _ => exact ⟨rfl, rfl⟩
  | resets hnow => exact absurd hnow hreset
  | quiet hquiet => exact ⟨hquiet.ksValid, hquiet.rk⟩

/-- Settles O24: valid keys stay, and the invariant says which ones they are. -/
theorem validRoundKeysAreImmutable : Obligations.ValidRoundKeysAreImmutable := by
  refine ⟨fun s t hks hreset h => ?stay, fun s t i rest hs hbusy hks hin h => ?read⟩
  case stay =>
    obtain ⟨hvalid, hrk⟩ := keysKept_of_step hks hreset h
    exact ⟨hvalid.trans hks, hrk⟩
  case read =>
    obtain ⟨-, -, -, hkeys, -⟩ := hs
    cases (step_read_rk_valid hbusy hks hin).symm.trans h
    rw [← hkeys hks]

/-! ### When a step stops -/

theorem exec_not_refused (i : Instr) (s : State) (r : Refusal) : exec i s ≠ .refused r := by
  by_cases hi : BufferCommand i
  · obtain ⟨ok, eff, src, dst, hform⟩ := exists_bufferForm hi
    rw [hform.exec_eq]
    exact bufferCommand_not_refused ok eff src dst s r
  · cases i with
    | nop | keyinit | encb | decb => exact fun h => by cases h
    | _ => exact absurd trivial hi

theorem hostAccess_not_refused (acc : Access) (s : State) (r : Refusal) : hostAccess acc s ≠ .refused r := by
  intro h
  obtain ⟨-, heq⟩ | ⟨a, -, ⟨-, heq⟩ | ⟨-, -, ⟨v, -, heq⟩ | ⟨f, -, heq⟩⟩ | ⟨-, v, -, heq⟩⟩ := hostAccess_cases acc s <;>
    cases heq.symm.trans h

theorem engineStep_not_refused (s : State) (r : Refusal) : engineStep s ≠ .refused r := by
  obtain ⟨i, -, -, heq⟩ | ⟨-, heq⟩ := engineStep_cases s <;> rw [heq]
  · exact exec_not_refused i s r
  · exact fun h => by cases h

/-- R159: no step refuses. -/
theorem step_not_refused (s : State) (r : Refusal) : step s ≠ .refused r := by
  obtain ⟨-, heq⟩ | ⟨acc, rest, -, heq⟩ | ⟨rest, -, heq⟩ | ⟨rest, -, heq⟩ := step_cases s <;> rw [heq]
  · exact engineStep_not_refused s r
  · exact hostAccess_not_refused acc _ r
  · exact engineStep_not_refused _ r
  · exact fun h => by cases h

/-- R57: the engine stops at an unwritten byte of the source of the command that completes now. -/
theorem unwrittenByte_of_engine_fault {s : State} {f : Fault}
    (hturn : s.inputs = [] ∨ ∃ rest, s.inputs = .engine :: rest) (h : engineStep (taken s) = .fault f) :
    ∃ b o, f = .unwrittenByte b o ∧ s.byteAt b o = none ∧ ∃ i, CompletesNow s i ∧ InSource i s b o := by
  obtain ⟨i, hbusy, hpend, heq⟩ | ⟨-, heq⟩ := engineStep_cases (taken s)
  · obtain ⟨b, o, rfl, hsource, hnone⟩ := exec_fault (heq.symm.trans h)
    refine ⟨b, o, rfl, hnone, i, ⟨hbusy, hpend, hturn⟩, ?_⟩
    cases b <;> exact hsource
  · cases heq.symm.trans h

/-- Settles O48: the engine stops only at a completion, a host access only at a read, and a reset never. -/
theorem stepsFaultOnlyOnUnwrittenReads : Obligations.StepsFaultOnlyOnUnwrittenReads := by
  refine fun s => ⟨step_not_refused s, fun f h => ?_⟩
  obtain ⟨hin, heq⟩ | ⟨acc, rest, hin, heq⟩ | ⟨rest, hin, heq⟩ | ⟨rest, hin, heq⟩ := step_cases s
  case inl =>
    obtain ⟨b, o, rfl, hnone, hnow⟩ :=
      unwrittenByte_of_engine_fault (.inl hin) (by rw [taken_of_nil hin, ← heq, h])
    exact .inr ⟨b, o, rfl, hnone, .inr hnow⟩
  case inr.inl =>
    obtain ⟨hidle, ⟨i, rfl, hks, rfl⟩ | ⟨b, o, w, q, rfl, hnone, rfl, hwidth, hlo, hhi, hsize⟩⟩ :=
      hostAccess_fault (heq.symm.trans h)
    · exact .inl ⟨i, rest, rfl, hidle, hks, hin⟩
    · refine .inr ⟨b, o, rfl, hnone, .inl ⟨hidle, rest, ?_⟩⟩
      obtain rfl | ⟨rfl, halign⟩ := hwidth
      · obtain rfl : q = o := by omega
        exact .inl ⟨hsize, hin⟩
      · obtain rfl : q = o - o % 8 := by omega
        exact .inr ⟨hsize, hin⟩
  case inr.inr.inl =>
    obtain ⟨b, o, rfl, hnone, hnow⟩ :=
      unwrittenByte_of_engine_fault (.inr ⟨rest, hin⟩) (by rw [← taken_of_cons hin, ← heq, h])
    exact .inr ⟨b, o, rfl, hnone, .inr hnow⟩
  case inr.inr.inr => cases heq.symm.trans h

/-- Settles O49: under the invariant the pending command passes its check, and only an unwritten source byte stops it. -/
theorem acceptedCommandsNeverFail : Obligations.AcceptedCommandsNeverFail := by
  intro s i hs hpend
  obtain ⟨-, -, ⟨-, hcheck⟩, -⟩ := hs
  have hcompleted : ∀ t, exec i s = .next t → Completed s t := fun t ht => by
    obtain hran | ⟨hno, -⟩ := exec_next ht
    · exact hran.completed
    · exact absurd (hcheck i hpend) hno
  refine ⟨fun hwritten => ?_, hcompleted, fun f hf => exec_fault hf⟩
  cases hexec : exec i s with
  | next t => exact ⟨t, rfl, hcompleted t hexec⟩
  | fault f =>
    obtain ⟨b, o, -, hsource, hnone⟩ := exec_fault hexec
    exact absurd hnone (hwritten b o hsource)
  | refused r => exact absurd hexec (exec_not_refused i s r)

end Sys2Proof.Proofs
end

section
/-! SUPPORT. Each command's completion in full (spec/40_command_interface.md R158, R160, spec/41_keyschedule.md R185,
spec/43_cbc_chainer.md R225, R231, R236, R241): its result, and what it leaves alone; the obligations O23, O26 and O33 to
O37. -/

namespace Sys2Proof.Proofs

open Sys2Proof Sys2Proof.Machine Sys2Proof.Claims

/-! ### NOP and KEYINIT -/

/-- Settles O26: NOP is the completion alone. -/
theorem nopOnlyCompletes : Obligations.NopOnlyCompletes := by
  refine fun s => ⟨finish s, rfl, ?_⟩
  simp [Completed, KeysKept, BlkKept, BuffersKept]

/-- Settles O23: KEYINIT is ENSURE_KS and the completion. -/
theorem keyinitEnsuresTheKeys : Obligations.KeyinitEnsuresTheKeys := by
  refine fun s => ⟨finish (ensureKs s), rfl, ⟨ensureKs_ksValid s, ensureKs_rk s⟩, ?_⟩
  simp [Completed, BuffersKept, BlkKept]

/-! ### The completion of a buffer command -/

/-- From `s` to `t` a buffer command stored its output `r.1` in `BUF[d]`; the keys, CV, the draws and PADERR are those of
its effect's state `r.2`, and the block registers and what no completion changes are as before. -/
structure EffectStored (s : State) (d : Buf) (r : Bytes × State) (t : State) : Prop where
  storedOnly : StoredOnly s t d r.1
  keys : KeysKept r.2 t
  cv : t.cv = r.2.cv
  draws : t.draws = r.2.draws
  padErr : t.padErr = r.2.padErr
  blk : BlkKept s t
  completed : Completed s t

/-- What is stored is stored with respect to every state with the same buffers. -/
theorem storedOnly_of_sameBuffers {s u t : State} {d : Buf} {out : Bytes} (h : SameBuffers s u)
    (ht : StoredOnly u t d out) : StoredOnly s t d out := by
  obtain ⟨hlen, hbytes, hothers, hmem⟩ := ht
  exact ⟨hlen, hbytes, fun c hc => (hothers c hc).trans (h.len c), fun a ha => by rw [hmem a ha, h.mem]⟩

section
variable {i : Instr} {ok : Params → Word → Bool} {eff : Bytes → State → Bytes × State} {src dst : BitVec 2}

/-- R158: before the output is stored a buffer command's effect touches the keys, CV, the draws and PADERR only. -/
theorem BufferForm.effect_frame (h : BufferForm i ok eff src dst) (S : Bytes) (s : State) :
    (eff S s).2 = { s with
      rk := (eff S s).2.rk, ksValid := (eff S s).2.ksValid, cv := (eff S s).2.cv, draws := (eff S s).2.draws,
      padErr := (eff S s).2.padErr } := by
  cases h with
  | pad | unpad => rfl
  | cbcenc | cbcencInj | cbcdec =>
    simp only [cbcencEffect, cbcencInjEffect, cbcencWith, cbcdecEffect, ensureKs]
    split <;> rfl

/-- R158: a buffer command that passes its check and whose source is written completes. -/
theorem BufferForm.exec_of_holds (h : BufferForm i ok eff src dst) {s : State} {b d : Buf} {S : Bytes}
    (hsel : Selects ok src dst s b d) (hS : s.Holds b S) (hout : (eff S s).1.length < 2 ^ 64) :
    ∃ t, exec i s = .next t ∧ EffectStored s d (eff S s) t := by
  have hframe := h.effect_frame S s
  have hsame : SameBuffers s (eff S s).2 := by
    rw [hframe]
    exact ⟨rfl, rfl, fun b => by cases b <;> rfl⟩
  refine ⟨stored d (eff S s).1 (eff S s).2,
    (h.exec_eq s).trans (bufferCommand_of_holds hsel.source hsel.dest hsel.bound hS),
    storedOnly_of_sameBuffers hsame (stored_storedOnly d _ hout), ?keys, ?cv, ?draws, ?padErr, ?blk, ?completed⟩
  case keys => exact ⟨stored_ksValid _ _ _, stored_rk _ _ _⟩
  case cv | draws | padErr => simp [stored]
  case blk | completed =>
    rw [hframe]
    simp [stored, BlkKept, Completed]

end

/-! ### PAD and UNPAD -/

/-- A length bound on the message in the source is a bound on LEN[SRC]. -/
theorem selects_of_holds {ok : Params → Word → Bool} {s : State} {src dst : BitVec 2} {b d : Buf} {S : Bytes}
    (hb : bufOf src = some b) (hd : bufOf dst = some d) (hS : s.Holds b S)
    (hok : ∀ n : Word, n.toNat = S.length → ok s.cfg n = true) : Selects ok src dst s b d :=
  ⟨hb, hd, hok _ hS.1.symm⟩

/-- Settles O33: PAD's effect is the padded message. -/
theorem padStoresThePaddedMessage : Obligations.PadStoresThePaddedMessage := by
  rintro s src dst b d S ⟨-, -, hmax, -⟩ hb hd hS hlen
  have hout : (padBytes S).length < 2 ^ 64 := by rw [padBytes_length, padLen]; omega
  obtain ⟨t, hexec, ht⟩ := (BufferForm.pad src dst).exec_of_holds
    (selects_of_holds hb hd hS fun n hn => decide_eq_true (by omega)) hS hout
  exact ⟨t, hexec, ht.storedOnly, ht.keys, ht.blk, ht.completed, ht.cv, ht.draws, ht.padErr⟩

/-- R240: a claim above 16 or above the length is invalid and nothing is stripped. -/
theorem unpadLen_of_invalid {S : Bytes} (h : 16 < lastByte S ∨ S.length < lastByte S) :
    unpadLen S = (S.length, false) := by
  by_cases h16 : 16 < lastByte S
  · exact unpadLen_of_gt h16
  · exact (if_neg h16).trans (if_pos (h.resolve_left h16))

/-- Settles O37: UNPAD's effect, for an invalid claim and for a valid one. -/
theorem unpadStripsTheClaimedPadding : Obligations.UnpadStripsTheClaimedPadding := by
  rintro s src dst b d S ⟨-, -, hmax, -⟩ hb hd hS hmin hlen
  have hout : (unpadEffect S s).1.length < 2 ^ 64 := by
    rw [unpadEffect, List.length_take]; omega
  obtain ⟨t, hexec, ht⟩ := (BufferForm.unpad src dst).exec_of_holds
    (selects_of_holds hb hd hS fun n hn => decide_eq_true (by omega)) hS hout
  have hstored : StoredOnly s t d (S.take (unpadLen S).1) := ht.storedOnly
  have hpad : t.padErr = (s.padErr || !(unpadLen S).2) := ht.padErr
  refine ⟨t, hexec, fun hinvalid => ?invalid, fun h16 hle => ?valid, ht.keys, ht.blk, ht.completed, ht.cv, ht.draws⟩
  case invalid =>
    rw [unpadLen_of_invalid hinvalid] at hstored hpad
    exact ⟨S.take_length ▸ hstored, hpad.trans (Bool.or_true _)⟩
  case valid =>
    rw [unpadLen_of_le h16 hle] at hstored hpad
    exact ⟨hstored, hpad.trans (Bool.or_false _)⟩

/-! ### CBCENC and CBCDEC -/

/-- Keys ensured by the effect are ensured by the command. -/
theorem EffectStored.keysEnsured {s t : State} {d : Buf} {r : Bytes × State} (h : EffectStored s d r t)
    (hr : KeysEnsured s r.2) : KeysEnsured s t := by
  obtain ⟨hks, hrk⟩ := h.keys
  exact ⟨hks.trans hr.1, hrk.trans hr.2⟩

/-- R231: CBCENC with the IV `iv`, drawn or injected, after ENSURE_KS has led to `u`. -/
theorem cbcenc_stores {i : Instr} {eff : Bytes → State → Bytes × State} {s u : State} {src dst : BitVec 2} {b d : Buf}
    {S iv : Bytes} (h : BufferForm i lenOkCbcenc eff src dst) (heff : eff S s = cbcencWith iv S u)
    (hiv : iv.length = 16) (hkeys : KeysEnsured s u) (hpad : u.padErr = s.padErr) (hwf : s.cfg.wf)
    (hb : bufOf src = some b) (hd : bufOf dst = some d) (hS : s.Holds b S) (hblocks : S.length % 16 = 0)
    (hmax : S.length + 16 ≤ s.cfg.maxSize) :
    ∃ t, exec i s = .next t ∧ StoredOnly s t d (cbcEnc t.rk S iv).1 ∧ t.cv = blockOf (cbcEnc t.rk S iv).2 ∧
      t.draws = u.draws ∧ KeysEnsured s t ∧ BlkKept s t ∧ Completed s t ∧ t.padErr = s.padErr := by
  obtain ⟨-, -, hsize, -⟩ := hwf
  obtain ⟨n, hn⟩ : ∃ n, S.length = 16 * n := Nat.dvd_of_mod_eq_zero hblocks
  have hout : (cbcencWith iv S u).1.length < 2 ^ 64 := by
    rw [cbcencWith, cbcEnc_length _ hn hiv]; omega
  obtain ⟨t, hexec, ht⟩ := h.exec_of_holds
    (selects_of_holds hb hd hS fun n hn => decide_eq_true (by omega)) hS (heff ▸ hout)
  rw [heff] at ht
  have hrk : t.rk = u.rk := ht.keys.2
  refine ⟨t, hexec, ?_⟩
  rw [hrk]
  exact ⟨ht.storedOnly, ht.cv, ht.draws, ht.keysEnsured hkeys, ht.blk, ht.completed, ht.padErr.trans hpad⟩

/-- Settles O34: the IV is the next draw. -/
theorem cbcencStoresDrawnIvAndCiphertext : Obligations.CbcencStoresDrawnIvAndCiphertext := by
  intro s src dst b d S
  have heff : cbcencEffect S s =
      cbcencWith (drawnIvBytes s.draws) S { ensureKs s with draws := s.draws + 1 } := by
    rw [cbcencEffect, ensureKs_draws]
  exact cbcenc_stores (.cbcenc src dst) heff (drawnIvBytes_length _) ⟨ensureKs_ksValid s, ensureKs_rk s⟩
    (ensureKs_padErr s)

/-- Settles O35: the IV is the one in the IV registers, and ENSURE_KS draws none. -/
theorem cbcencInjStoresInjectedIvAndCiphertext : Obligations.CbcencInjStoresInjectedIvAndCiphertext := by
  intro s src dst b d S
  have heff : cbcencInjEffect S s = cbcencWith (bytes64 s.ivLo ++ bytes64 s.ivHi) S (ensureKs s) := by
    rw [cbcencInjEffect, injectedIv, ensureKs_ivLo, ensureKs_ivHi]
  rw [← ensureKs_draws s]
  exact cbcenc_stores (.cbcencInj src dst) heff rfl ⟨ensureKs_ksValid s, ensureKs_rk s⟩ (ensureKs_padErr s)

/-- Settles O36: CBCDEC's effect is CbcDec under the ensured keys. -/
theorem cbcdecStoresThePlaintext : Obligations.CbcdecStoresThePlaintext := by
  rintro s src dst b d S ⟨-, -, hsize, -⟩ hb hd hS hblocks hmin hmax
  obtain ⟨n, hn⟩ : ∃ n, S.length = 16 * (n + 1) := ⟨S.length / 16 - 1, by omega⟩
  have hplain (rk : Vector Word 32) : (cbcDec rk S).1.length = S.length - 16 := by
    rw [cbcDec_length rk hn]; omega
  have hout : (cbcdecEffect S s).1.length < 2 ^ 64 := by
    rw [cbcdecEffect, hplain]; omega
  obtain ⟨t, hexec, ht⟩ := (BufferForm.cbcdec src dst).exec_of_holds
    (selects_of_holds hb hd hS fun n hn => decide_eq_true (by omega)) hS hout
  have hrk : t.rk = (ensureKs s).rk := ht.keys.2
  refine ⟨t, hexec, ?_⟩
  rw [hrk]
  exact ⟨ht.storedOnly, hplain _, ht.cv, ht.draws.trans (ensureKs_draws s),
    ht.keysEnsured ⟨ensureKs_ksValid s, ensureKs_rk s⟩, ht.blk, ht.completed, ht.padErr.trans (ensureKs_padErr s)⟩

end Sys2Proof.Proofs
end

section
/-! SUPPORT. Host reads of a buffer, as bytes and as words (spec/20_memory.md R90), of written and of unwritten bytes
(spec/10_state.md R57); the obligations O17 and O20. -/

namespace Sys2Proof.Proofs

open Sys2Proof Sys2Proof.Machine Sys2Proof.Claims

/-! ### Unwritten bytes -/

/-- R57: the step that takes a host read of a range with an unwritten byte stops at one of the range. -/
theorem step_read_unwritten {s : State} {b : Buf} {o w k : Nat} {rest : List Event} (h : BufferAccessAnswers s o w)
    (hk : k < w) (hnone : s.byteAt b (o + k) = none)
    (hin : s.inputs = .host ⟨.read, w, s.cfg.base + bufAddr b o⟩ :: rest) :
    ∃ j < w, s.byteAt b (o + j) = none ∧ step s = .fault (.unwrittenByte b (o + j)) := by
  have hacc := hostAccess_read_buffer { s with inputs := rest } w b o h.idle h.width h.size h.inside
  cases hread : State.bufRead { s with inputs := rest } b o w with
  | ok l =>
    obtain ⟨hl, hbytes⟩ := (bufRead_ok_iff _ b o w l).1 hread
    cases hnone.symm.trans (hbytes k (by omega))
  | error f =>
    obtain ⟨j, hj, rfl, hnone', -⟩ := bufRead_error _ b o w f hread
    rw [hread] at hacc
    exact ⟨j, hj, hnone', (step_of_host hin).trans hacc⟩

/-- Settles O20: the two widths of a host read, and a command's source range. -/
theorem unwrittenBytesFault : Obligations.UnwrittenBytesFault := by
  refine ⟨?byte, ?word, ?command⟩
  case byte =>
    rintro s b o rest hidle ⟨-, -, hmax, -⟩ ho hnone hin
    obtain ⟨j, hj, -, hfault⟩ := step_read_unwritten ⟨hidle, .inl rfl, hmax, ho⟩ Nat.one_pos hnone hin
    obtain rfl : j = 0 := Nat.lt_one_iff.1 hj
    exact hfault
  case word =>
    rintro s b o k rest hidle ⟨-, -, hmax, -⟩ halign ho hk hnone hin
    exact step_read_unwritten ⟨hidle, .inr ⟨rfl, halign⟩, hmax, ho⟩ hk hnone hin
  case command =>
    intro s i src b o hw hlen hsrc hb ho hnone
    obtain ⟨q, ⟨-, hq⟩, hnone', hfault⟩ := exec_of_unwritten hw hlen ⟨⟨src, hsrc, hb⟩, ho⟩ hnone
    exact ⟨q, hq, hnone', hfault⟩

/-! ### The byte view and the word view -/

/-- R270: an answer that is no error comes from an access under none of the bus-error conditions. -/
theorem not_busErrorCondition_of_resp {s t : State} {acc : Access} {rest : List Event} {d : Option Word}
    (hin : s.inputs = .host acc :: rest) (hlo : s.cfg.base ≤ acc.addr) (hhi : acc.addr < s.cfg.base + 0x40000)
    (ht : step s = .next t) (hresp : t.resp = some ⟨false, d⟩) : ¬ BusErrorCondition s acc := by
  intro herr
  cases (step_of_busErrorCondition hin hlo hhi herr).symm.trans ht
  simp [errorAnswer] at hresp

/-- R86, R90: an aligned word that reads as `w` is written, byte `k` of it being byte `k` of `w`, and BUSY = 0. -/
theorem byteAt_of_word_read {s t : State} {b : Buf} {o : Nat} {w : Word} {rest : List Event}
    (hmax : s.cfg.maxSize ≤ 65536) (ho : o + 8 ≤ s.cfg.maxSize) (halign : o % 8 = 0) (hin : s.inputs = .host (readAt s (bufAddr b o)) :: rest)
    (ht : step s = .next t) (hresp : t.resp = some ⟨false, some w⟩) :
    s.busy = false ∧ ∀ k < 8, s.byteAt b (o + k) = some (w.extractLsb' (8 * k) 8) := by
  have hlt := bufAddr_lt b o (by omega)
  have hpos : 0x10000 ≤ bufAddr b o := by unfold bufAddr; omega
  have hnoError := not_busErrorCondition_of_resp hin (Nat.le_add_right _ _) (Nat.add_lt_add_left hlt _) ht hresp
  have hidle : s.busy = false := by
    refine Bool.eq_false_iff.2 fun hbusy => hnoError (.inr (.inr (.inr (.inr (.inr ⟨hbusy, ?_⟩)))))
    simp only [readAt, Nat.add_sub_cancel_left]
    omega
  have hacc := hostAccess_read_buffer { s with inputs := rest } 8 b o hidle (.inr ⟨rfl, halign⟩) hmax ho
  rw [step_of_host hin] at ht
  cases hread : State.bufRead { s with inputs := rest } b o 8 with
  | error f =>
    rw [hread] at hacc
    cases hacc.symm.trans ht
  | ok l =>
    rw [hread] at hacc
    cases hacc.symm.trans ht
    obtain rfl : le64 l = w := by simpa using hresp
    obtain ⟨hl, hbytes⟩ := (bufRead_ok_iff _ b o 8 l).1 hread
    refine ⟨hidle, fun k hk => ?_⟩
    rw [le64_extract l k (by omega) hk]
    exact hbytes k (by omega)

/-- Settles O17: the word's read says what the byte at the offset is, and the byte's read answers it. -/
theorem byteViewIsPartOfWordView : Obligations.ByteViewIsPartOfWordView := by
  rintro s t b o w rest rest' ⟨hblocks, -, hmax, -⟩ ho ht hresp
  obtain ⟨hidle, hbytes⟩ := byteAt_of_word_read
    (s := { s with inputs := .host (readAt s (bufAddr b (o - o % 8))) :: rest }) hmax
    (show o - o % 8 + 8 ≤ s.cfg.maxSize by omega) (by omega) rfl ht hresp
  have hbyte : s.byteAt b o = some (w.extractLsb' (8 * (o % 8)) 8) := by
    have h := hbytes (o % 8) (Nat.mod_lt _ (by decide))
    rwa [Nat.sub_add_cancel (Nat.mod_le o 8)] at h
  have hacc : BufferAccessAnswers { s with inputs := .host ⟨.read, 1, s.cfg.base + bufAddr b o⟩ :: rest' } o 1 :=
    ⟨hidle, .inl rfl, hmax, ho⟩
  rw [← le64_singleton]
  refine step_read_buffer (x := fun _ => w.extractLsb' (8 * (o % 8)) 8) hacc (fun k hk => ?_) rfl
  rw [Nat.lt_one_iff.1 hk]
  exact hbyte

end Sys2Proof.Proofs
end

section
/-! SUPPORT. CbcDec on a changed ciphertext (spec/43_cbc_chainer.md R238), and the inverses of spec/42_block_cipher.md
R204 and spec/43_cbc_chainer.md R239 as obligations: O31, O40 and O41. -/

namespace Sys2Proof.Proofs

open Sys2Proof Sys2Proof.Machine Sys2Proof.Claims

/-- Settles O31: BLOCK and UNBLOCK are inverse, and so are Encrypt and Decrypt. -/
theorem decBytesUndoesEncBytes : Obligations.DecBytesUndoesEncBytes := fun rk _ h => decBytes_encBytes rk h

/-- Settles O40: block by block, CbcDec takes off what CbcEnc put on. -/
theorem cbcDecUndoesCbcEnc : Obligations.CbcDecUndoesCbcEnc := fun rk _ _ hP hiv => cbcDec_cbcEnc rk hP hiv

/-! ### One changed byte -/

theorem blockAt_length {C : Bytes} {j n : Nat} (hC : C.length = 16 * n) (hj : j < n) : (blockAt C j).length = 16 := by
  rw [blockAt, List.length_take, List.length_drop]
  omega

/-- Byte `k` lies in block `k / 16` only. -/
theorem blockAt_set_of_ne (C : Bytes) {j k : Nat} (x : Byte) (h : j ≠ k / 16) : blockAt (C.set k x) j = blockAt C j := by
  apply List.ext_getElem?
  intro m
  simp only [blockAt, List.getElem?_take, List.getElem?_drop]
  split
  next hm => rw [List.getElem?_set_ne (by omega)]
  next => rfl

/-- A changed byte changes its block. -/
theorem blockAt_set_ne {C : Bytes} {k : Nat} {x : Byte} (h : k < C.length) (hx : x ≠ C[k]) :
    blockAt (C.set k x) (k / 16) ≠ blockAt C (k / 16) := by
  intro heq
  have hbyte := congrArg (·[k % 16]?) heq
  simp only [blockAt, List.getElem?_take, List.getElem?_drop, Nat.mod_lt k (show 0 < 16 by decide), if_true,
    Nat.div_add_mod, List.getElem?_set_self h, List.getElem?_eq_getElem h, Option.some.injEq] at hbyte
  exact hx hbyte

/-- R204: EncBytes undoes DecBytes on 16 bytes. -/
theorem encBytes_decBytes (rk : Vector Word 32) {S : Bytes} (h : S.length = 16) : encBytes rk (decBytes rk S) = S := by
  rw [encBytes, decBytes, blockOf_unblock, encrypt_decrypt, unblock_blockOf S h]

/-- R13: XOR with one sequence is injective on the sequences of its length. -/
theorem xorBytes_right_cancel {s s' t : Bytes} (hs : s.length = t.length) (hs' : s'.length = t.length)
    (h : xorBytes s t = xorBytes s' t) : s = s' := by
  rw [← xorBytes_xorBytes_cancel hs.le, h, xorBytes_xorBytes_cancel hs'.le]

theorem xorBytes_comm (s t : Bytes) : xorBytes s t = xorBytes t s :=
  List.zipWith_comm_of_comm BitVec.xor_comm

/-- R235: where two ciphertexts have one plaintext, they agree on a block exactly when they agree on the next. -/
theorem blockAt_eq_iff_of_cbcDec_eq (rk : Vector Word 32) {C D : Bytes} {n j : Nat} (hC : C.length = 16 * (n + 1))
    (hD : D.length = 16 * (n + 1)) (hj : j < n) (h : (cbcDec rk C).1 = (cbcDec rk D).1) :
    blockAt C j = blockAt D j ↔ blockAt C (j + 1) = blockAt D (j + 1) := by
  obtain ⟨-, hblocksC, -⟩ := cbcDecUnchainsEveryBlock rk C n hC
  obtain ⟨-, hblocksD, -⟩ := cbcDecUnchainsEveryBlock rk D n hD
  have hplain := (hblocksC j hj).symm.trans ((congrArg (blockAt · j) h).trans (hblocksD j hj))
  have hC0 : (blockAt C j).length = 16 := blockAt_length hC (by omega)
  have hD0 : (blockAt D j).length = 16 := blockAt_length hD (by omega)
  constructor
  · intro heq
    rw [heq] at hplain
    have hdec : decBytes rk (blockAt C (j + 1)) = decBytes rk (blockAt D (j + 1)) :=
      xorBytes_right_cancel hD0.symm hD0.symm hplain
    rw [← encBytes_decBytes rk (blockAt_length hC (show j + 1 < n + 1 by omega)), hdec,
      encBytes_decBytes rk (blockAt_length hD (show j + 1 < n + 1 by omega))]
  · intro heq
    rw [heq, xorBytes_comm _ (blockAt C j), xorBytes_comm _ (blockAt D j)] at hplain
    exact xorBytes_right_cancel (t := decBytes rk (blockAt D (j + 1))) hC0 hD0 hplain

/-- Settles O41: the changed block has a neighbour that did not change, so the plaintexts differ. -/
theorem tamperedCiphertextDecryptsDifferently : Obligations.TamperedCiphertextDecryptsDifferently := by
  intro rk C n k x hC hk hx
  have hD : (C.set k x).length = 16 * (n + 2) := by rw [List.length_set, hC]
  refine ⟨by rw [cbcDec_length rk hD, cbcDec_length rk hC], fun heq => ?_⟩
  have hchanged := blockAt_set_ne hk hx
  have hkept (j : Nat) (hj : j ≠ k / 16) : blockAt (C.set k x) j = blockAt C j := blockAt_set_of_ne C x hj
  obtain hzero | ⟨j, hj⟩ : k / 16 = 0 ∨ ∃ j, k / 16 = j + 1 := by
    cases k / 16 with
    | zero => exact .inl rfl
    | succ j => exact .inr ⟨j, rfl⟩
  · rw [hzero] at hchanged hkept
    exact hchanged ((blockAt_eq_iff_of_cbcDec_eq rk hD hC (by omega) heq).2 (hkept 1 (by decide)))
  · rw [hj] at hchanged hkept
    exact hchanged ((blockAt_eq_iff_of_cbcDec_eq rk hD hC (by omega) heq).1 (hkept j (by omega)))

end Sys2Proof.Proofs
end

section
/-! SUPPORT. Reset (spec/10_state.md R55, spec/70_reset_and_hazards.md R301, R302) and the steps that run a command
(spec/40_command_interface.md R155): the obligations O44, O45 and O55 to O58. -/

namespace Sys2Proof.Proofs

open Sys2Proof Sys2Proof.Machine Sys2Proof.Claims

/-! ### Reset -/

/-- Settles O44: the reset values, field by field. -/
theorem resetLeavesTheResetValues : Obligations.ResetLeavesTheResetValues :=
  ⟨by decide, rfl, rfl, rfl, rfl, fun b => by cases b <;> rfl, rfl, fun _ _ => rfl⟩

/-- Settles O45: the reset step does not look at the pending command. -/
theorem resetAbandonsThePendingCommand : Obligations.ResetAbandonsThePendingCommand := by
  intro s rest hin
  refine ⟨_, step_of_reset hin, ?status, rfl, rfl, rfl, rfl, rfl, resetStep_len _, fun _ _ => rfl, rfl, rfl, rfl⟩
  case status =>
    apply BitVec.eq_of_toNat_eq
    rw [statusWord_toNat]
    rfl

/-! ### The engine's turn -/

/-- R155: with a command pending the engine performs it. -/
theorem engineStep_of_pending {s : State} {i : Instr} (hbusy : s.busy = true) (hpend : s.pend = some i) :
    engineStep s = exec i s := by
  simp only [engineStep, hbusy, hpend, if_true]

/-- R285: while BUSY = 0 the engine has no step. -/
theorem engineStep_of_idle {s : State} (hidle : s.busy = false) : engineStep s = .next s :=
  if_neg (by simp [hidle])

/-- Settles O55: the engine's turn with a command pending, at an event or at the end, and its idle turn. -/
theorem engineStepRunsThePendingCommand : Obligations.EngineStepRunsThePendingCommand := by
  refine fun s rest => ⟨fun i hbusy hpend hin => ?_, fun i hbusy hpend hin => ?_, fun hidle hin => ?_⟩
  · exact (step_of_engine hin).trans (engineStep_of_pending hbusy hpend)
  · exact (step_of_nil hin).trans (engineStep_of_pending hbusy hpend)
  · exact (step_of_engine hin).trans (engineStep_of_idle hidle)

/-- Settles O56: with no event left the engine moves, and it has no step. -/
theorem idleBlockHoldsItsState : Obligations.IdleBlockHoldsItsState :=
  fun _ hidle hin => (step_of_nil hin).trans (engineStep_of_idle hidle)

/-! ### Issue and completion -/

/-- R126, R130: the word of a well-formed command within its length bound passes the check as that command. -/
theorem check_encode {i : Instr} {s : State} (hw : i.WellFormed) (hlen : lenOk i s = true) :
    check (encode i) s = .ok i :=
  (check_ok_iff (encode i) s i).2 ⟨decodeOfEncodeIsTheCommand i hw, hlen⟩

/-- Settles O57: the CMD write accepts the command, and the engine's turn performs it. -/
theorem commandWriteThenEngineRunsTheCommand : Obligations.CommandWriteThenEngineRunsTheCommand := by
  intro s i rest hw hlen hidle hin
  refine ⟨_, acceptedIssueRecordsTheCommand s (encode i) i _ hidle hin (check_encode hw hlen), ?_⟩
  exact (step_of_engine rfl).trans (engineStep_of_pending rfl rfl)

theorem decode_of_decodeTableWord {w : Nat} {i : Instr} (h : decodeTableWord 64 w = some i) :
    decode (tableWord 64 w) = .ok i := by
  rw [decodeTableWord, if_pos (Nat.le_refl 64)] at h
  split at h
  next hdecode => rw [hdecode, Option.some.inj h]
  next => cases h

/-- Settles O58: the word is pending as an accepted issue leaves it, and the engine moves next. -/
theorem placedWordRunsAsItsCommand : Obligations.PlacedWordRunsAsItsCommand := by
  intro s w i h
  have hplaced : s.withFetchWord 64 w = { acceptIssue i s with inputs := engineFirst s.inputs } := by
    simp only [State.withFetchWord, deliver, decode_of_decodeTableWord h]
  rw [hplaced]
  cases hin : s.inputs with
  | nil =>
    rw [step_of_nil (s := { acceptIssue i s with inputs := engineFirst [] }) rfl, engineStep_of_pending rfl rfl]
    simp only [engineFirst, acceptIssue, ← hin]
  | cons e rest =>
    rw [step_of_engine (s := { acceptIssue i s with inputs := engineFirst (e :: rest) }) rfl,
      engineStep_of_pending rfl rfl]
    simp only [acceptIssue, ← hin]

end Sys2Proof.Proofs
end

section
/-! SUPPORT. A command between its issue and its completion: the host's accesses meanwhile (spec/40_command_interface.md
R156, spec/60_exceptions.md R271) and the polled command (spec/30_encoding.md R133); the obligations O50 and O59. -/

namespace Sys2Proof.Proofs

open Sys2Proof Sys2Proof.Machine Sys2Proof.Claims

/-! ### The host's view of a busy block -/

/-- What host accesses can change while BUSY = 1: the flags that a STATUS write clears, the events to come and the last
answer. -/
structure HostView where
  done : Bool
  err : Bool
  errCode : BitVec 4
  padErr : Bool
  inputs : List Event
  resp : Option BusResponse

def viewOf (s : State) : HostView := ⟨s.done, s.err, s.errCode, s.padErr, s.inputs, s.resp⟩

def withView (f : HostView) (s : State) : State :=
  { s with done := f.done, err := f.err, errCode := f.errCode, padErr := f.padErr, inputs := f.inputs, resp := f.resp }

theorem withView_viewOf (s : State) : withView (viewOf s) s = s := rfl

theorem withView_len (f : HostView) (s : State) (b : Buf) : (withView f s).len b = s.len b := by cases b <;> rfl

theorem lenOk_withView (i : Instr) (f : HostView) (s : State) : lenOk i (withView f s) = lenOk i s :=
  lenOk_congr i rfl (withView_len f s)

theorem ensureKs_withView (f : HostView) (s : State) : ensureKs (withView f s) = withView f (ensureKs s) := by
  cases hv : s.ksValid <;> simp [ensureKs, withView, hv]

/-! ### A completion under two views -/

/-- R241: a buffer command's effect does not look at the view, and adds PADERR to it when its claim is invalid. -/
theorem BufferForm.effect_withView {i : Instr} {ok : Params → Word → Bool} {eff : Bytes → State → Bytes × State}
    {src dst : BitVec 2} (h : BufferForm i ok eff src dst) (f : HostView) (S : Bytes) (s : State) :
    eff S (withView f s) =
      ((eff S s).1, withView { f with padErr := f.padErr || claimInvalid i S } (eff S s).2) := by
  cases h with
  | unpad => rfl
  | pad =>
    simp only [claimInvalid, Bool.or_false]
    rfl
  | cbcenc | cbcencInj | cbcdec =>
    simp only [claimInvalid, Bool.or_false, cbcencEffect, cbcencInjEffect, cbcdecEffect, ensureKs_withView]
    rfl

theorem stored_withView (d : Buf) (out : Bytes) (f : HostView) (s : State) :
    stored d out (withView f s) = withView { f with done := true } (stored d out s) := by
  cases d <;> rfl

theorem failedCheck_withView (e : CmdError) (f : HostView) (s : State) :
    failedCheck e (withView f s) =
      withView { f with done := true, err := true, errCode := errorCode e } (failedCheck e s) := rfl

/-- R156: `exec i` ends in `u` up to the view, whatever the view at its start; it leaves the events to come, and sets
PADERR exactly if `p`. -/
def EndsUpToView (i : Instr) (s u : State) (p : Bool) : Prop :=
  ∀ f, ∃ g, exec i (withView f s) = .next (withView g u) ∧ g.padErr = (f.padErr || p) ∧ g.inputs = f.inputs

/-- R156 for a buffer command. -/
theorem BufferForm.endsUpToView {i : Instr} {ok : Params → Word → Bool} {eff : Bytes → State → Bytes × State}
    {src dst : BitVec 2} (h : BufferForm i ok eff src dst) {s u : State} (hu : exec i s = .next u) :
    ∃ p, EndsUpToView i s u p := by
  have hsame (f : HostView) : SameBuffers s (withView f s) := ⟨rfl, rfl, withView_len f s⟩
  rw [h.exec_eq] at hu
  obtain ⟨d, S, hall⟩ | ⟨e, hall⟩ | ⟨r, hall⟩ := bufferCommand_of_sameBuffers ok eff src dst s
  · cases (hall s (.refl s)).symm.trans hu
    refine ⟨claimInvalid i S,
      fun f => ⟨{ f with done := true, padErr := f.padErr || claimInvalid i S }, ?_, rfl, rfl⟩⟩
    rw [h.exec_eq, hall _ (hsame f), h.effect_withView, stored_withView]
  · cases (hall s (.refl s)).symm.trans hu
    refine ⟨false,
      fun f => ⟨{ f with done := true, err := true, errCode := errorCode e }, ?_, (Bool.or_false _).symm, rfl⟩⟩
    rw [h.exec_eq, hall _ (hsame f), failedCheck_withView]
  · cases (hall s (.refl s)).symm.trans hu

/-- R156 for a command whose completion follows `act`, which does not look at the view. -/
theorem endsUpToView_of_finish {i : Instr} {s : State} {act : State → State}
    (hexec : ∀ s, exec i s = .next (finish (act s))) (hact : ∀ f s, act (withView f s) = withView f (act s)) : EndsUpToView i s (finish (act s)) false := by
  refine fun f => ⟨{ f with done := true }, ?_, (Bool.or_false _).symm, rfl⟩
  rw [hexec, hact]
  rfl

/-- R156: no command looks at the view. -/
theorem exists_endsUpToView {i : Instr} {s u : State} (hu : exec i s = .next u) : ∃ p, EndsUpToView i s u p := by
  by_cases hi : BufferCommand i
  · obtain ⟨ok, eff, src, dst, h⟩ := exists_bufferForm hi
    exact h.endsUpToView hu
  · refine ⟨false, ?_⟩
    cases i with
    | nop =>
      cases hu
      exact endsUpToView_of_finish (act := id) (fun _ => rfl) fun _ _ => rfl
    | keyinit =>
      cases hu
      exact endsUpToView_of_finish (fun _ => rfl) ensureKs_withView
    | encb =>
      cases (exec_encb s).symm.trans hu
      refine endsUpToView_of_finish
        (act := fun s => setBlk (encrypt (ensureKs s).rk ⟨s.blkX, s.blkY⟩) (ensureKs s)) exec_encb fun f s => ?_
      rw [ensureKs_withView]
      rfl
    | decb =>
      cases (exec_decb s).symm.trans hu
      refine endsUpToView_of_finish
        (act := fun s => setBlk (decrypt (ensureKs s).rk ⟨s.blkX, s.blkY⟩) (ensureKs s)) exec_decb fun f s => ?_
      rw [ensureKs_withView]
      rfl
    | _ => exact absurd trivial hi

/-! ### Host accesses while BUSY = 1 -/

/-- The access is a write to STATUS with bit `n` set (R42). -/
def ClearsBit (s : State) (acc : Access) (n : Nat) : Prop := ∃ v, acc = writeAt s 0x10 v ∧ v.getLsbD n = true

/-- R42: the view `f` after STATUS writes in `s`, of which one had bit 2 set exactly if `c₂`, and one bit 4 exactly if
`c₄`. -/
structure FlagsAfter (f : HostView) (s : State) (c₂ c₄ : Prop) : Prop where
  padErr : f.padErr = true ↔ s.padErr = true ∧ ¬ c₄
  cleared : c₂ → f.err = false ∧ f.errCode = 0
  kept : ¬ c₂ → f.err = s.err ∧ f.errCode = s.errCode

theorem FlagsAfter.trans {f g : HostView} {s : State} {c₂ c₄ d₂ d₄ : Prop} (hg : FlagsAfter g s c₂ c₄)
    (hf : FlagsAfter f (withView g s) d₂ d₄) : FlagsAfter f s (c₂ ∨ d₂) (c₄ ∨ d₄) where
  padErr := by rw [hf.padErr, withView, hg.padErr, not_or, and_assoc]
  cleared h := by
    by_cases hd : d₂
    · exact hf.cleared hd
    · obtain ⟨herr, hcode⟩ := hf.kept hd
      obtain ⟨herr', hcode'⟩ := hg.cleared (h.resolve_right hd)
      exact ⟨herr.trans herr', hcode.trans hcode'⟩
  kept h := by
    rw [not_or] at h
    obtain ⟨herr, hcode⟩ := hf.kept h.2
    obtain ⟨herr', hcode'⟩ := hg.kept h.1
    exact ⟨herr.trans herr', hcode.trans hcode'⟩

/-- R271: a host access while BUSY = 1 is a STATUS write or changes the answer only. -/
theorem step_host_of_busy {s : State} {acc : Access} {rest : List Event} (hbusy : s.busy = true)
    (hin : s.inputs = .host acc :: rest) :
    (∃ v, acc = writeAt s 0x10 v ∧
      step s = .next (writeStatus v { s with inputs := rest, resp := some ⟨false, none⟩ })) ∨
    ((∀ v, acc ≠ writeAt s 0x10 v) ∧ ∃ r, step s = .next { s with inputs := rest, resp := r }) := by
  by_cases hwrite : ∃ v, acc = writeAt s 0x10 v
  · obtain ⟨v, rfl⟩ := hwrite
    exact .inl ⟨v, rfl, step_write_status hin⟩
  refine .inr ⟨not_exists.1 hwrite, ?_⟩
  by_cases hout : acc.addr < s.cfg.base ∨ s.cfg.base + 0x40000 ≤ acc.addr
  · exact ⟨_, addressOutsideTheWindowHasNoEffect s acc rest hin hout⟩
  rw [not_or, not_lt, not_le] at hout
  obtain ⟨hstatus, hconfig, -, hother⟩ := busyBlockAnswersOnlyStatusAndConfig s acc rest hbusy hin hout.1 hout.2
  by_cases hreadStatus : acc = readAt s 0x10
  · exact ⟨_, hstatus hreadStatus⟩
  by_cases hreadConfig : acc = readAt s 0x0
  · exact ⟨_, hconfig hreadConfig⟩
  exact ⟨_, hother hreadStatus hreadConfig (not_exists.1 hwrite)⟩

/-- R271, R42: a host access while BUSY = 1 changes the view only, and clears the flags it selects. -/
theorem exists_view_step {s : State} {acc : Access} {rest : List Event} (hbusy : s.busy = true)
    (hin : s.inputs = .host acc :: rest) :
    ∃ g, step s = .next (withView g s) ∧ g.inputs = rest ∧ FlagsAfter g s (ClearsBit s acc 2) (ClearsBit s acc 4) := by
  obtain ⟨v, rfl, hstep⟩ | ⟨hno, r, hstep⟩ := step_host_of_busy hbusy hin
  · have hbit (n : Nat) : ClearsBit s (writeAt s 0x10 v) n ↔ v.getLsbD n = true := by
      simp [ClearsBit, writeAt]
    refine ⟨viewOf (writeStatus v { s with inputs := rest, resp := some ⟨false, none⟩ }), hstep, rfl, ?_⟩
    rw [hbit, hbit]
    refine ⟨by simp [viewOf], fun h => ?cleared, fun h => ?kept⟩
    case cleared => simp [viewOf, h]
    case kept =>
      rw [Bool.not_eq_true] at h
      simp only [viewOf, writeStatus_err, writeStatus_errCode, h, Bool.not_false, Bool.and_true, Bool.false_eq_true,
        if_false, and_self]
  · have hbit (n : Nat) : ¬ ClearsBit s acc n := fun ⟨v, hv, _⟩ => hno v hv
    exact ⟨{ viewOf s with inputs := rest, resp := r }, hstep, rfl, by simp [hbit, viewOf],
      fun h => absurd h (hbit 2), fun _ => ⟨rfl, rfl⟩⟩

/-- R42: a clearing STATUS write comes now or later. -/
theorem statusClearComing_cons {s : State} {g : HostView} {acc : Access} (n : Nat)
    (hin : s.inputs = .host acc :: g.inputs) :
    StatusClearComing s n ↔ ClearsBit s acc n ∨ StatusClearComing (withView g s) n := by
  simp only [StatusClearComing, ClearsBit, hin, List.mem_cons, Event.host.injEq, or_and_right, exists_or]
  simp only [eq_comm (b := acc)]
  rfl

/-- R156, R271: host accesses alone, while BUSY = 1, take the block to another view of the same state. -/
theorem run_host_events {s : State} (hbusy : s.busy = true) (hhost : ∀ e ∈ s.inputs, ∃ acc, e = Event.host acc) :
    ∃ f, (∀ k, Sys2Proof.core.run (s.inputs.length + k) s = Sys2Proof.core.run k (withView f s)) ∧ f.inputs = [] ∧
      FlagsAfter f s (StatusClearComing s 2) (StatusClearComing s 4) := by
  generalize hl : s.inputs = l at hhost
  induction l generalizing s with
  | nil =>
    have hno (n : Nat) : ¬ StatusClearComing s n := by simp [StatusClearComing, hl]
    refine ⟨viewOf s, fun k => ?_, hl, by simp [hno, viewOf], fun h => absurd h (hno 2), fun _ => ⟨rfl, rfl⟩⟩
    rw [withView_viewOf, List.length_nil, Nat.zero_add]
  | cons e rest ih =>
    obtain ⟨acc, rfl⟩ := hhost e List.mem_cons_self
    obtain ⟨g, hstep, rfl, hg⟩ := exists_view_step hbusy hl
    obtain ⟨f, hrun, hf, hflags⟩ := ih (s := withView g s) hbusy rfl fun e he => hhost e (List.mem_cons_of_mem _ he)
    refine ⟨f, fun k => ?_, hf, ?_⟩
    · rw [List.length_cons, Nat.add_right_comm, run_succ _ hstep]
      exact hrun k
    · rw [statusClearComing_cons 2 hl, statusClearComing_cons 4 hl]
      exact hg.trans hflags

/-- Settles O50: the host accesses lead to another view of the state, and the completion does not look at the view. -/
theorem hostStepsDoNotDisturbThePendingCommand : Obligations.HostStepsDoNotDisturbThePendingCommand := by
  intro s u i hbusy hpend hhost hu
  obtain ⟨p, hends⟩ := exists_endsUpToView hu
  obtain ⟨f, hrun, hf, hflags⟩ := run_host_events hbusy hhost
  obtain ⟨g, ht, hgpad, hgin⟩ := hends f
  obtain ⟨g₀, hv, hg₀pad, -⟩ := hends { viewOf s with padErr := false }
  have hstep : step (withView f s) = .next (withView g u) :=
    (step_of_nil (s := withView f s) hf).trans ((engineStep_of_pending (s := withView f s) hbusy hpend).trans ht)
  obtain ⟨htbusy, htdone, htpend⟩ := completion_of_exec ht
  refine ⟨withView g u, withView g₀ u, ?run, hv, htbusy, htdone, htpend, hgin.trans hf, rfl, withView_len g u, rfl, rfl,
    rfl, rfl, rfl, rfl, rfl, rfl, rfl, fun hvpad => ?padSet, fun hvpad => ?padKept, fun hw hlen => ?err⟩
  case run => rw [hrun 1, run_succ 0 hstep, run_zero]
  case padSet =>
    have hp : p = true := hg₀pad.symm.trans hvpad
    exact hgpad.trans (by rw [hp, Bool.or_true])
  case padKept =>
    have hp : p = false := hg₀pad.symm.trans hvpad
    rw [hp, Bool.or_false] at hgpad
    rw [← hflags.padErr, ← hgpad]
    rfl
  case err =>
    obtain ⟨⟨-, -, -, herr, hcode, -⟩, -, -⟩ | ⟨hno, -⟩ := exec_next ht
    · rw [herr, hcode]
      exact ⟨hflags.cleared, hflags.kept⟩
    · exact absurd ⟨hw, (lenOk_withView i f s).trans hlen⟩ hno

/-! ### A polled command -/

/-- The events to come and the last answer set. -/
def withEnv (l : List Event) (r : Option BusResponse) (s : State) : State := { s with inputs := l, resp := r }

theorem ensureKs_withEnv (l : List Event) (r : Option BusResponse) (s : State) :
    ensureKs (withEnv l r s) = withEnv l r (ensureKs s) := by
  cases hv : s.ksValid <;> simp [ensureKs, withEnv, hv]

/-- No buffer command looks at the events to come or the last answer. -/
theorem bystander_withEnv (i : Instr) (l : List Event) (r : Option BusResponse) : Bystander i (withEnv l r) where
  buffers s := ⟨rfl, rfl, fun b => by cases b <;> rfl⟩
  effect h S s := by
    cases h with
    | pad | unpad => rfl
    | cbcenc | cbcencInj | cbcdec => simp only [cbcencEffect, cbcencInjEffect, cbcdecEffect, ensureKs_withEnv]; rfl
  stores d out s := by cases d <;> rfl
  fails _ _ := rfl

/-- R155: a completion does not look at the events to come or the last answer. -/
theorem exec_withEnv (i : Instr) (l : List Event) (r : Option BusResponse) (s : State) :
    exec i (withEnv l r s) = mapNext (withEnv l r) (exec i s) := by
  by_cases hi : BufferCommand i
  · exact exec_bystander hi (bystander_withEnv i l r) s
  · cases i with
    | nop => rfl
    | keyinit => simp only [exec, execKeyinit, ensureKs_withEnv]; rfl
    | encb => simp only [exec, execEncb, ensureKs_withEnv]; rfl
    | decb => simp only [exec, execDecb, ensureKs_withEnv]; rfl
    | _ => exact absurd trivial hi

/-- No completion changes the build parameters (R9). -/
theorem cfg_of_exec {i : Instr} {s t : State} (h : exec i s = .next t) : t.cfg = s.cfg := by
  obtain ⟨⟨-, -, -, -, -, -, -, hcfg, -⟩, -, -⟩ | ⟨-, e, rfl⟩ := exec_next h
  · exact hcfg
  · rfl

/-- R133: reads of STATUS change the answer only. -/
theorem run_status_reads (s : State) (k m : Nat) (l : List Event) (r : Option BusResponse) :
    ∃ r', Sys2Proof.core.run (k + m) (withEnv (List.replicate k (.host (readAt s 0x10)) ++ l) r s) =
      Sys2Proof.core.run m (withEnv l r' s) := by
  induction k generalizing r with
  | zero => exact ⟨r, by rw [Nat.zero_add]; rfl⟩
  | succ k ih =>
    have hstep : step (withEnv (List.replicate (k + 1) (.host (readAt s 0x10)) ++ l) r s) =
        .next (withEnv (List.replicate k (.host (readAt s 0x10)) ++ l) (some ⟨false, some (statusWord s)⟩) s) :=
      step_read_status rfl
    obtain ⟨r', hr'⟩ := ih (some ⟨false, some (statusWord s)⟩)
    exact ⟨r', by rw [Nat.add_right_comm, run_succ _ hstep, hr']⟩

/-- R155: the engine's turn is `exec`, whatever events come after it. -/
theorem step_engine_withEnv {a u : State} {i : Instr} (hbusy : a.busy = true) (hpend : a.pend = some i)
    (hu : exec i a = .next u) (l : List Event) (r : Option BusResponse) :
    step (withEnv (.engine :: l) r a) = .next (withEnv l r u) := by
  have hturn : engineStep (withEnv l r a) = exec i (withEnv l r a) := engineStep_of_pending hbusy hpend
  rw [exec_withEnv, hu] at hturn
  exact (step_of_engine rfl).trans hturn

/-- R133, R155: POLL from a state with a command pending ends after the command, with STATUS as it then is. -/
theorem run_poll {a u : State} {i : Instr} (hbusy : a.busy = true) (hpend : a.pend = some i) (hu : exec i a = .next u)
    (k : Nat) (r : Option BusResponse) :
    Sys2Proof.core.run (k + 2) (withEnv (pollEvents a.cfg k) r a) =
      .next (withEnv [] (some ⟨false, some (statusWord u)⟩) u) := by
  obtain ⟨r', hreads⟩ := run_status_reads a k 2 [.engine, .host (readAt a 0x10)] r
  have hread : step (withEnv [.host (readAt a 0x10)] r' u) =
      .next (withEnv [] (some ⟨false, some (statusWord u)⟩) u) := by
    have hacc : readAt a 0x10 = readAt u 0x10 := by rw [readAt, readAt, cfg_of_exec hu]
    rw [hacc]
    exact step_read_status rfl
  refine hreads.trans ?_
  rw [run_succ 1 (step_engine_withEnv hbusy hpend hu _ r'), run_succ 0 hread, run_zero]

/-- Settles O59: the CMD write accepts the command, and POLL runs it. -/
theorem doCommandPollsToCompletion : Obligations.DoCommandPollsToCompletion := by
  intro s u i k hw hlen hidle hin hu
  have hissue := acceptedIssueRecordsTheCommand s (encode i) i (pollEvents s.cfg k) hidle hin (check_encode hw hlen)
  obtain ⟨hbusy, -, -⟩ := completion_of_exec hu
  refine ⟨withEnv [] (some ⟨false, some (statusWord u)⟩) u, ?_, rfl, rfl, rfl, hbusy⟩
  rw [show k + 3 = (k + 2) + 1 from rfl, run_succ _ hissue]
  exact run_poll rfl rfl hu k (some ⟨false, none⟩)

end Sys2Proof.Proofs
end
